-- ==== Sys2Proof/Word.lean ====
section
/-!
DEFINITION. The engine's word and vector types and the three operations a command can select (`00_scope.md` R7, R10,
R11; `30_encoding.md` R40).
-/

namespace Sys2Proof

/-- The command word (R41): 16 bits, bit 0 the least significant. -/
abbrev CommandWord := BitVec 16

/-- The response word (R46): 11 bits, bit 0 the least significant. -/
abbrev ResponseWord := BitVec 11

/-- A key as a vector of 10 bits (R17). Vector index `i` of an `n`-bit vector is `getMsbD i`: bit `n - 1 - i` (R31, R55). -/
abbrev KeyBits := BitVec 10

/-- A subkey, or one data unit, as a vector of 8 bits (R7, R18). -/
abbrev Block := BitVec 8

/-- A half of a data unit as a vector of 4 bits (R7). -/
abbrev Half := BitVec 4

/-- The operations of the abstract command (R40). -/
inductive Op where
  | setkey
  | enc
  | dec
  deriving DecidableEq, Repr

end Sys2Proof
end

