-- ==== Sys2Proof/Syntax.lean ====
section
/-!
DEFINITION. The commands and pseudo-commands of SDES-CMD (`00_scope.md` R4; `30_encoding.md` R40, R52, R54), one
constructor per row of the opcode table.
-/

namespace Sys2Proof

/-- One command or pseudo-command. An argument is a mathematical integer, not a bit pattern (R40): a key or a unit
outside its legal range can be written down, and its command answers with an error. -/
inductive Instr where
  /-- `SETKEY a` (R73). -/
  | setkey (a : Int)
  /-- `ENC a` (R91). -/
  | enc (a : Int)
  /-- `DEC a` (R98). -/
  | dec (a : Int)
  /-- `CONSTRUCT k` (R52): the same words as `SETKEY k`. -/
  | construct (k : Int)
  /-- `ENCSEQ v0, ..., v(n-1)` (R52, R107): `n` commands `ENC`. -/
  | encseq (vs : List Int)
  /-- `DECSEQ v0, ..., v(n-1)` (R52, R107): `n` commands `DEC`. -/
  | decseq (vs : List Int)
  deriving DecidableEq, Repr

end Sys2Proof
end

