-- ==== Sys2Proof/WellFormed.lean ====
section
/-!
DEFINITION. Which commands the word interface can carry and the assembler accepts (`30_encoding.md` R43, R45, R50).
Well-formedness restricts the transport only: the meanings are defined for every integer (R40).
-/

namespace Sys2Proof

/-- An argument the 12-bit signed field of a command word holds: an integer in [-2048, 2047] (R43, R50). -/
abbrev ArgFits (a : Int) : Prop := -2048 ≤ a ∧ a ≤ 2047

/-- Every argument of the command fits the argument field. A legal subrange (R73, R91, R98) is not checked here: that
is the command's own check (R43). -/
def Instr.WellFormed : Instr → Bool
  | .setkey a => decide (ArgFits a)
  | .enc a => decide (ArgFits a)
  | .dec a => decide (ArgFits a)
  | .construct k => decide (ArgFits k)
  | .encseq vs => vs.all fun v => decide (ArgFits v)
  | .decseq vs => vs.all fun v => decide (ArgFits v)

end Sys2Proof
end

