-- ==== Sys2Proof/Decode.lean ====
section
/-!
DEFINITION. The decoder of command words and the encoder (`30_encoding.md` R41 to R45, R52, R53). A command is one
16-bit word and no more (R41, R45), and the decoder is the same function in every state (R53).
-/

namespace Sys2Proof

/-- What the decoder makes of a command word (R45): a command, or the rejection that R44 names. -/
inductive Decoded where
  /-- The word selects an operation. -/
  | legal (i : Instr)
  /-- The word's `opc` field is 0x0 or 0x4 to 0xF (R44): the engine raises `IllegalCommand` (R125). -/
  | illegalCommand
  deriving DecidableEq, Repr

/-- The field `opc`, `cmd[15:12]` (R41). -/
def opcField (w : CommandWord) : Nat := w.toNat / 2 ^ 12 % 2 ^ 4

/-- The field `arg`, `cmd[11:0]` (R41). -/
def argField (w : CommandWord) : Nat := w.toNat % 2 ^ 12

/-- `sext_12(a)` for 0 <= a < 4096 (R12): `a` below 2048, else `a - 4096`. -/
def sext12 (a : Nat) : Int := if a < 2048 then (a : Int) else (a : Int) - 4096

/-- The decoder (R45), total on 16-bit words. -/
def decode (w : CommandWord) : Decoded :=
  let a := sext12 (argField w)
  if opcField w = 1 then .legal (.setkey a)
  else if opcField w = 2 then .legal (.enc a)
  else if opcField w = 3 then .legal (.dec a)
  else .illegalCommand

/-- `opcOf(op)` (R42, R45). -/
def opcOf : Op → Nat
  | .setkey => 1
  | .enc => 2
  | .dec => 3

/-- `encode(op, a)` for -2048 <= a <= 2047 (R45): `opcOf(op) * 4096 + (a mod 4096)`. -/
def encodeCommand (op : Op) (a : Int) : CommandWord :=
  BitVec.ofNat 16 (opcOf op * 4096 + (a % 4096).toNat)

/-- The abstract commands a command or pseudo-command stands for, in order (R40, R52). -/
def Instr.commands : Instr → List (Op × Int)
  | .setkey a => [(.setkey, a)]
  | .enc a => [(.enc, a)]
  | .dec a => [(.dec, a)]
  | .construct k => [(.setkey, k)]
  | .encseq vs => vs.map fun v => (.enc, v)
  | .decseq vs => vs.map fun v => (.dec, v)

/-- The abstract command as an instruction (R40). -/
def Instr.ofCommand : Op × Int → Instr
  | (.setkey, a) => .setkey a
  | (.enc, a) => .enc a
  | (.dec, a) => .dec a

/-- The command words of a well-formed instruction: one word for a command, one per unit for a sequence (R45, R52). -/
def encode (i : Instr) : List CommandWord := i.commands.map fun p => encodeCommand p.1 p.2

/-- The command word whose lowest `nbits` bits are those of `w`, and whose other bits are 0. -/
def tableWord (nbits w : Nat) : CommandWord := BitVec.ofNat 16 (w % 2 ^ nbits)

/-- The instruction the decoder reads from the opcode table's word `w` of `nbits` bits; log entry 7. -/
def decodeTableWord (nbits w : Nat) : Option Instr :=
  match decode (tableWord nbits w) with
  | .legal i => some i
  | .illegalCommand => none

end Sys2Proof
end

