-- ==== Sys2Proof/Machine/Operands.lean ====
section
/-!
DEFINITION. The one operand form, an integer argument, and its two legal ranges (`20_memory.md` R33;
`30_encoding.md` R40, R43). The checks compare mathematical integers; nothing is truncated first (R72, R80, R96).
-/

namespace Sys2Proof.Machine

/-- A legal key: an integer in [0, 1023] (R17, R73). -/
abbrev KeyInRange (a : Int) : Prop := 0 ≤ a ∧ a ≤ 1023

/-- A legal unit: an integer in [0, 255] (R33, R91, R98). -/
abbrev ByteInRange (a : Int) : Prop := 0 ≤ a ∧ a ≤ 255

end Sys2Proof.Machine
end

