-- ==== Sys2Proof/Machine/Bits.lean ====
section
/-!
DEFINITION. The bit-vector primitives (`40_primitives_and_tables.md` R55 to R63), on `BitVec n` read from its most
significant end: vector index `i` is `getMsbD i` (R31, R55; log entry 13). `v ++ w` (R57) is `BitVec`'s own append, and
`xor` (R63) its `^^^`.
-/

namespace Sys2Proof.Machine

/-- The vector of length `n` whose bit at index `i` is `f i`. -/
def build : (n : Nat) → (Fin n → Bool) → BitVec n
  | 0, _ => 0#0
  | n + 1, f => (build n fun i => f i.castSucc).concat (f (Fin.last n))

/-- `slice(v, i, j)` (R56): the elements `i` to `j - 1`. -/
def slice {n : Nat} (v : BitVec n) (i j : Nat) : BitVec (j - i) :=
  build (j - i) fun k => v.getMsbD (i + k)

/-- `bitsOf(n, x)` for 0 <= x < 2^n (R58): the vector of `x`, most significant bit first. -/
def bitsOf (n x : Nat) : BitVec n := BitVec.ofNat n x

/-- `intOf(v)` (R59): the integer of `v`, index 0 weighted `2^(n-1)`. -/
def intOf {n : Nat} (v : BitVec n) : Nat := v.toNat

/-- `perm(T, v)` (R60), gather through a table of 1-based source positions: `out(i) = v(T(i) - 1)`. R60 asks that every
entry be in [1, len(v)]. For an entry that is not, which no well-formed table has (R64), the value is the model's
choice: an entry above `len(v)` reads as 0, and the entry 0 reads `v(0)`, as the entry 1 does (log entry 17). -/
def perm {m n : Nat} (T : Vector Nat m) (v : BitVec n) : BitVec m :=
  build m fun i => v.getMsbD (T[i] - 1)

/-- `unperm(T, v)` (R61), scatter through a permutation of 1 .. n: `out(T(i) - 1) = v(i)`. Output index `j` therefore
takes the element at the one index where `T` holds `j + 1`. For a table that is no permutation, which R61 excludes,
the value is the model's choice: the first such index counts, and where there is none the output is 0 (log entry 17). -/
def unperm {n : Nat} (T : Vector Nat n) (v : BitVec n) : BitVec n :=
  build n fun j => v.getMsbD (T.toList.idxOf (j.val + 1))

/-- `rotl1(v)` (R62): circular left rotation by one, `out(i) = v((i + 1) mod n)`. -/
def rotl1 {n : Nat} (v : BitVec n) : BitVec n :=
  build n fun i => v.getMsbD ((i + 1) % n)

/-- `xor(v, w)` (R63). -/
def xor {n : Nat} (v w : BitVec n) : BitVec n := v ^^^ w

end Sys2Proof.Machine
end

