-- ==== Sys2Proof/Machine/State.lean ====
section
/-!
DEFINITION. The state of one engine instance and of the host's side of its interface, as plain data
(`10_state.md` R15 to R27; `30_encoding.md` R46; `70_reset_and_hazards.md` R137, R146, R147).
-/

namespace Sys2Proof.Machine

/-- The complete architectural state of one instance (R16). The constructor is the flag `KEYED`: while `KEYED = 0` the
registers `KEY`, `K1` and `K2` hold no value (R20, R27), and all four elements are written together (R73). Log entry 2. -/
inductive Engine where
  /-- `KEYED = 0`: no key, no subkeys. -/
  | unkeyed
  /-- `KEYED = 1`: the registers `KEY` (R17), `K1` (R18) and `K2` (R19). -/
  | keyed (key : KeyBits) (k1 k2 : Block)
  deriving DecidableEq, Repr

/-- The status of a response (R121). The codes 5 to 7 are never produced, so they have no constructor (U5). -/
inductive Status where
  | ok
  | invalidKey
  | invalidByteValue
  | noKey
  | illegalCommand
  deriving DecidableEq, Repr

/-- One response (R46): the pair a model over abstract commands returns. `Response.word` is its 11-bit word. -/
structure Response where
  status : Status
  data : Block
  deriving DecidableEq, Repr

/-- The result of a sequence pseudo-command: the output units (R107), or the status of the first unit that failed and
no output (R108). -/
inductive SeqResult where
  | units (ds : List Block)
  | failed (st : Status)
  deriving DecidableEq, Repr

/-- What the host may do when the engine is idle (R147): present a command word; present a command at the abstract
level (R40), or a pseudo-command, which the host itself expands (R52); reset the engine (R137). Log entries 3, 9, 10. -/
inductive HostMove where
  | word (w : CommandWord)
  | command (i : Instr)
  | reset
  deriving DecidableEq, Repr

/-- The machine: the engine, and the host's side of the interface. `moves`, `responses`, `results` and `stopsAtError`
are the model's own (log entries 3, 4 and 6): the engine has no state but `engine` (R16, R25). -/
structure State where
  engine : Engine
  /-- The moves the host has still to make, the next one first (R22, R146). -/
  moves : List HostMove
  /-- The responses the host has been given, the oldest first (R147). -/
  responses : List Response
  /-- The results of the host's sequence pseudo-commands, the oldest first (R107). -/
  results : List SeqResult
  /-- Whether the host stops presenting the units of a sequence at the first error; R108 allows it both. That one choice
  holds for all sequences of a run, since no move writes it, is the model's choice (log entry 6). -/
  stopsAtError : Bool
  deriving DecidableEq, Repr

/-- Reasons for which the machine stops with a fault: none, so no constructor. Every error is a response of the command
that raised it, after which the engine is at once ready for the next command (R128), and a step is total (R146). Log
entry 8. -/
inductive Fault where
  deriving DecidableEq, Repr

/-- Reasons for which an instruction has no meaning. -/
inductive Refusal where
  /-- Raised by an arm of `exec` whose instruction has no meaning yet: safe. No arm of this model answers with it. -/
  | notModelled (mnemonic : String)
  deriving DecidableEq, Repr

/-- The machine right after reset: `KEYED = 0`, and `KEY`, `K1`, `K2` without a value (R27, R137, R138). The other
fields are the host's; that they are empty, and that `stopsAtError` is false, are design choices (log entries 3, 4, 6). -/
def State.reset : State :=
  { engine := .unkeyed, moves := [], responses := [], results := [], stopsAtError := false }

end Sys2Proof.Machine
end

