-- ==== Sys2Proof/Machine/Ops.lean ====
section
/-!
DEFINITION. The shared operations: ending a command with a response, raising an error (the engine's one exception
entry), the response word, handing responses to the host, and reset (`00_scope.md` R14; `30_encoding.md` R46, R47;
`60_exceptions.md` R121, R128, R129; `70_reset_and_hazards.md` R137).
-/

namespace Sys2Proof.Machine

/-- The status code of `rsp[10:8]` (R121). -/
def Status.code : Status → Nat
  | .ok => 0
  | .invalidKey => 1
  | .invalidByteValue => 2
  | .noKey => 3
  | .illegalCommand => 4

/-- `respond(status, data)` as a word (R46): `status * 256 + data`. -/
def Response.word (r : Response) : ResponseWord := BitVec.ofNat 11 (r.status.code * 256 + r.data.toNat)

/-- The end of a command that succeeds with the integer `data` in [0, 255] (R14, R47). -/
def respond (e : Engine) (data : Nat) : Engine × Response := (e, { status := .ok, data := bitsOf 8 data })

/-- `raise E` (R14), the entry of every error (R128): no state element is written, the response carries the error's
status and no data, and the engine is ready for the next command. There is no handler, no saved register and no mode
to change, so there is nothing to return from (R129). -/
def raise (error : Status) (e : Engine) : Engine × Response := (e, { status := error, data := 0 })

/-- The engine goes to its new state and the host gets the command's response (R146, R147). -/
def State.deliver (s : State) (r : Engine × Response) : State :=
  { s with engine := r.1, responses := s.responses ++ [r.2] }

/-- The result of a sequence pseudo-command from the responses of its units: their data, in order, if all succeeded
(R107), else the status of the first that failed (R108). -/
def seqResult : List Response → SeqResult
  | [] => .units []
  | r :: rs =>
    if r.status = .ok then
      match seqResult rs with
      | .units ds => .units (r.data :: ds)
      | .failed st => .failed st
    else .failed r.status

/-- The host gets the responses of a sequence's units, and the pseudo-command's result from them (R107, R108). -/
def State.deliverSequence (s : State) (r : Engine × List Response) : State :=
  { s with engine := r.1, responses := s.responses ++ r.2, results := s.results ++ [seqResult r.2] }

/-- The host has made its next move; `rest` are those left. -/
def State.withMoves (s : State) (rest : List HostMove) : State := { s with moves := rest }

/-- Reset (R137, R138): `KEYED <- 0`, and `KEY`, `K1`, `K2` hold no value. It produces no response. -/
def State.resetEngine (s : State) : State := { s with engine := .unkeyed }

end Sys2Proof.Machine
end

