-- ==== Sys2Proof/Machine/DataCommand.lean ====
section
/-!
DEFINITION. What `ENC` and `DEC` share: the order of their checks and their response (`43_encrypt.md` R91, R96;
`44_decrypt.md` R98, R104; `60_exceptions.md` R124, R127).
-/

namespace Sys2Proof.Machine

/-- A data command with the block function `f` of the unit and the two subkeys: `NoKey` is checked first, then the
range of the unit (R127); no state element is written (R97, R105). -/
def dataOp (f : Nat → Block → Block → Nat) (a : Int) (e : Engine) : Engine × Response :=
  match e with
  | .unkeyed => raise .noKey e
  | .keyed _ k1 k2 => if ByteInRange a then respond e (f a.toNat k1 k2) else raise .invalidByteValue e

end Sys2Proof.Machine
end

