-- ==== Sys2Proof/Config.lean ====
section
/-!
DEFINITION. What an implementation fixes: the shape and the conditions of the record `cfg` of eight constant tables
(`00_scope.md` R8; `40_primitives_and_tables.md` R64 to R67), and the open parameter `latency` (`92_eei_decisions.md`
D12). The default contents are in `Machine/DefaultTables.lean`.
-/

namespace Sys2Proof

/-- The eight constant tables (R64, R67). A position table is a fixed ordered sequence of 1-based source positions; a
substitution box is a 4x4 table of values 0 to 3, rows first. -/
structure Tables where
  p10 : Vector Nat 10
  p8 : Vector Nat 8
  ip : Vector Nat 8
  fp : Vector Nat 8
  ep : Vector Nat 8
  p4 : Vector Nat 4
  sbox1 : Vector (Vector (Fin 4) 4) 4
  sbox2 : Vector (Vector (Fin 4) 4) 4
  deriving DecidableEq, Repr

/-- Every entry is a 1-based position of an `n`-bit vector (R64). -/
abbrev PositionsIn {m : Nat} (n : Nat) (T : Vector Nat m) : Prop := ∀ x ∈ T.toList, 1 ≤ x ∧ x ≤ n

/-- The table holds every position 1 to `n` exactly once (R65): `n` entries, in range, no two equal. -/
abbrev IsPermutation {n : Nat} (T : Vector Nat n) : Prop := PositionsIn n T ∧ T.toList.Nodup

/-- Table `U` undoes table `T`, in table terms (R66): `T(U(i) - 1) = i + 1`. -/
abbrev Undoes {n : Nat} (T U : Vector Nat n) : Prop := ∀ i : Fin n, T.toList[U[i] - 1]? = some (i.val + 1)

/-- `cfg` is well formed (R64, R65, R66; what R67 asks of the substitution boxes is in their type). -/
structure Tables.WF (c : Tables) : Prop where
  p10 : IsPermutation c.p10
  p8 : PositionsIn 10 c.p8
  ip : IsPermutation c.ip
  fp : IsPermutation c.fp
  ep : PositionsIn 4 c.ep
  p4 : IsPermutation c.p4
  ip_fp : Undoes c.ip c.fp
  fp_ip : Undoes c.fp c.ip

/-- The number of clock cycles a command takes: the open parameter of D12 (`93_implementation_defined.md` U7), which no
rule reads. It has no body, so nothing can be proved about its values; log entry 12. -/
opaque Config.latency : Op → Nat

end Sys2Proof
end

