-- ==== Sys2Proof/Machine/DefaultTables.lean ====
section
/-!
DEFINITION. The default contents of the tables (`40_primitives_and_tables.md` R68 to R70), and the record `cfg` the
machine is instantiated with (`92_eei_decisions.md` D1). The spec takes them from general knowledge, not from its
source (G1 to G3); log entry 1.
-/

namespace Sys2Proof.Machine

/-- The classic S-DES tables (R68, R69, R70). -/
def classicTables : Tables where
  p10 := #v[3, 5, 2, 7, 4, 10, 1, 9, 8, 6]
  p8 := #v[6, 3, 7, 4, 8, 5, 10, 9]
  ip := #v[2, 6, 3, 1, 4, 8, 5, 7]
  fp := #v[4, 1, 3, 5, 7, 2, 8, 6]
  ep := #v[4, 1, 2, 3, 2, 3, 4, 1]
  p4 := #v[2, 4, 3, 1]
  sbox1 := #v[#v[1, 0, 3, 2], #v[3, 2, 1, 0], #v[0, 2, 1, 3], #v[3, 1, 3, 2]]
  sbox2 := #v[#v[0, 1, 2, 3], #v[2, 0, 1, 3], #v[3, 0, 1, 0], #v[2, 1, 0, 3]]

/-- The tables wired into this engine (R8, R29): no command writes them, and reset does not touch them (R138). -/
def cfg : Tables := classicTables

end Sys2Proof.Machine
end

