-- ==== Sys2Proof/Machine/RoundFunction.lean ====
section
/-!
DEFINITION. The round function functionK (`42_round_function.md` R82 to R88).
-/

namespace Sys2Proof.Machine

/-- A row or column number from two selector bits (R72, R85): the first one weighs 2. -/
def selector (first second : Bool) : Fin 4 := Fin.ofNat 4 (2 * first.toNat + second.toNat)

/-- `sbox(S, g)` (R85): the first two bits select the row, the last two the column (not the textbook's selection). -/
def sbox (S : Vector (Vector (Fin 4) 4) 4) (g : Half) : Nat :=
  let row := selector (g.getMsbD 0) (g.getMsbD 1)
  let col := selector (g.getMsbD 2) (g.getMsbD 3)
  S[row][col].val

/-- `functionK(h, K)` (R82). -/
def functionK (c : Tables) (h : Half) (K : Block) : Half :=
  let e := perm c.ep h
  let x := xor e K
  let s1 := sbox c.sbox1 (slice x 0 4)
  let s2 := sbox c.sbox2 (slice x 4 8)
  perm c.p4 (bitsOf 2 s1 ++ bitsOf 2 s2)

end Sys2Proof.Machine
end

