-- ==== Sys2Proof/Machine/Decrypt.lean ====
section
/-!
DEFINITION. Single-block decryption and `DEC` (`44_decrypt.md` R98 to R105). The last concatenation is in the order
that `90_conflicts.md` C1 settles (R103).
-/

namespace Sys2Proof.Machine

/-- `decryptBlock(a, k1, k2)` (R99), for an integer 0 <= a <= 255: K2 in the first round (R101), K1 in the second
(R102), and `Ro ++ Lo` into the inverse of IP (R103). -/
def decryptBlock (c : Tables) (a : Nat) (k1 k2 : Block) : Nat :=
  let u := unperm c.fp (bitsOf 8 a)
  let ld := slice u 0 4
  let rd := slice u 4 8
  let lo := xor ld (functionK c rd k2)
  let ro := xor rd (functionK c lo k1)
  intOf (unperm c.ip (ro ++ lo))

/-- `DEC a` on the engine (R98). -/
def decOp (c : Tables) (a : Int) (e : Engine) : Engine × Response := dataOp (decryptBlock c) a e

/-- `DEC a` (R98). -/
def execDec (a : Int) (s : State) : Host.Outcome State Fault Refusal :=
  .next (s.deliver (decOp cfg a s.engine))

end Sys2Proof.Machine
end

