-- ==== Sys2Proof/Machine/Encrypt.lean ====
section
/-!
DEFINITION. Single-block encryption and `ENC` (`43_encrypt.md` R91 to R97).
-/

namespace Sys2Proof.Machine

/-- `encryptBlock(a, k1, k2)` (R92), for an integer 0 <= a <= 255: K1 in the first round (R93), K2 in the second (R94),
and the right half first in the pre-output vector (R95). -/
def encryptBlock (c : Tables) (a : Nat) (k1 k2 : Block) : Nat :=
  let p := perm c.ip (bitsOf 8 a)
  let l0 := slice p 0 4
  let r0 := slice p 4 8
  let l1 := xor l0 (functionK c r0 k1)
  let r2 := xor r0 (functionK c l1 k2)
  intOf (perm c.fp (r2 ++ l1))

/-- `ENC a` on the engine (R91). -/
def encOp (c : Tables) (a : Int) (e : Engine) : Engine × Response := dataOp (encryptBlock c) a e

/-- `ENC a` (R91). -/
def execEnc (a : Int) (s : State) : Host.Outcome State Fault Refusal :=
  .next (s.deliver (encOp cfg a s.engine))

end Sys2Proof.Machine
end

