-- ==== Sys2Proof/Machine/KeySchedule.lean ====
section
/-!
DEFINITION. The key schedule and the keying family: `SETKEY` and `CONSTRUCT` (`41_key_schedule.md` R73 to R81).
-/

namespace Sys2Proof.Machine

/-- The 10-bit key after P10, for an integer 0 <= a <= 1023 (R74, R75). -/
def keyAfterP10 (c : Tables) (a : Nat) : KeyBits := perm c.p10 (bitsOf 10 a)

/-- `keySchedule(a)` (R79), for an integer 0 <= a <= 1023. The half called Right is the first five bits (R75). Each
half is rotated by one position before K1 and by one further position before K2, not by two (R76, R78). -/
def keySchedule (c : Tables) (a : Nat) : Block × Block :=
  let p := keyAfterP10 c a
  let right1 := rotl1 (slice p 0 5)
  let left1 := rotl1 (slice p 5 10)
  let right2 := rotl1 right1
  let left2 := rotl1 left1
  (perm c.p8 (right1 ++ left1), perm c.p8 (right2 ++ left2))

/-- `SETKEY a` on the engine (R73, R80, R81): the range check comes first, then all four elements are written. -/
def setkeyOp (c : Tables) (a : Int) (e : Engine) : Engine × Response :=
  if KeyInRange a then
    let ks := keySchedule c a.toNat
    respond (.keyed (bitsOf 10 a.toNat) ks.1 ks.2) 0
  else raise .invalidKey e

/-- `SETKEY a` (R73). -/
def execSetkey (a : Int) (s : State) : Host.Outcome State Fault Refusal :=
  .next (s.deliver (setkeyOp cfg a s.engine))

/-- `CONSTRUCT k` (R52): the host presents `SETKEY k`. On a keyed engine it is that same command too (R81). -/
def execConstruct (k : Int) (s : State) : Host.Outcome State Fault Refusal :=
  .next (s.deliver (setkeyOp cfg k s.engine))

end Sys2Proof.Machine
end

