-- ==== Sys2Proof/Machine/Commands.lean ====
section
/-!
DEFINITION. The engine's step on one abstract command, on one command word, and on a run of commands
(`30_encoding.md` R40, R45, R46; `70_reset_and_hazards.md` R146).
-/

namespace Sys2Proof.Machine

/-- `step(cfg, state, (op, a)) = (state', response)` (R40, R146). -/
def engineStep (c : Tables) (p : Op × Int) (e : Engine) : Engine × Response :=
  match p.1 with
  | .setkey => setkeyOp c p.2 e
  | .enc => encOp c p.2 e
  | .dec => decOp c p.2 e

/-- The host presents commands one after the other, with no other command in between (R35, R107). If `stop`, it
presents nothing after the first error; else it presents them all (R108). -/
def runCommands (c : Tables) (stop : Bool) : List (Op × Int) → Engine → Engine × List Response
  | [], e => (e, [])
  | p :: ps, e =>
    let r := engineStep c p e
    if stop && r.2.status != .ok then (r.1, [r.2])
    else
      let q := runCommands c stop ps r.1
      (q.1, r.2 :: q.2)

/-- An illegal command word (R44, R125). -/
def illegalOp (e : Engine) : Engine × Response := raise .illegalCommand e

end Sys2Proof.Machine
end

