-- ==== Sys2Proof/Machine/Sequences.lean ====
section
/-!
DEFINITION. The sequence pseudo-commands `ENCSEQ` and `DECSEQ` (`45_sequences.md` R106 to R109).
-/

namespace Sys2Proof.Machine

/-- `ENCSEQ v0, ..., v(n-1)` (R107, R108): `ENC v0` to `ENC v(n-1)`, in index order. -/
def execEncseq (vs : List Int) (s : State) : Host.Outcome State Fault Refusal :=
  .next (s.deliverSequence (runCommands cfg s.stopsAtError (vs.map fun v => (.enc, v)) s.engine))

/-- `DECSEQ v0, ..., v(n-1)` (R107, R108): `DEC v0` to `DEC v(n-1)`, in index order. -/
def execDecseq (vs : List Int) (s : State) : Host.Outcome State Fault Refusal :=
  .next (s.deliverSequence (runCommands cfg s.stopsAtError (vs.map fun v => (.dec, v)) s.engine))

end Sys2Proof.Machine
end

