-- ==== Sys2Proof/Machine/Dispatch.lean ====
section
/-!
DEFINITION. One arm per constructor of Instr: the meaning of each row of the opcode table.
-/

namespace Sys2Proof.Machine

def exec (i : Instr) (s : State) : Host.Outcome State Fault Refusal :=
  match i with
  | .setkey a => Sys2Proof.Machine.execSetkey a s
  | .enc a => Sys2Proof.Machine.execEnc a s
  | .dec a => Sys2Proof.Machine.execDec a s
  | .construct k => Sys2Proof.Machine.execConstruct k s
  | .encseq vs => Sys2Proof.Machine.execEncseq vs s
  | .decseq vs => Sys2Proof.Machine.execDecseq vs s

end Sys2Proof.Machine
end

