-- ==== Sys2Proof/Machine/Moves.lean ====
section
/-!
DEFINITION. What the machine does with the host's next move (`30_encoding.md` R44, R45, R46;
`70_reset_and_hazards.md` R137, R146, R147).
-/

namespace Sys2Proof.Machine

/-- One move of the host. A word that decodes is its instruction; a word that does not raises `IllegalCommand` (R125);
an abstract command is itself (R40); reset is an event, not a command, and gives no response (R137). -/
def perform (m : HostMove) (s : State) : Host.Outcome State Fault Refusal :=
  match m with
  | .word w =>
    match decode w with
    | .legal i => exec i s
    | .illegalCommand => .next (s.deliver (illegalOp s.engine))
  | .command i => exec i s
  | .reset => .next s.resetEngine

/-- The engine takes the next move the host makes (R146). When the host has no more moves the run is over and the
engine idles, keeping its state (R136, R147; log entry 5). -/
def takeMove (s : State) : Host.Outcome State Fault Refusal :=
  match s.moves with
  | [] => .next s
  | m :: rest => perform m (s.withMoves rest)

/-- The host presents the word `w` next, before the moves it had planned. -/
def State.present (s : State) (w : CommandWord) : State := s.withMoves (.word w :: s.moves)

end Sys2Proof.Machine
end

