-- ==== Sys2Proof/Machine/Step.lean ====
section
/-!
DEFINITION. One step of the machine (`70_reset_and_hazards.md` R146).
-/

namespace Sys2Proof.Machine

/-- One step: the host's next move, to completion. -/
def step (s : State) : Host.Outcome State Fault Refusal := takeMove s

/-- The opcode table's word `w` of `nbits` bits is the next word the host presents (log entry 7). -/
def State.withFetchWord (s : State) (nbits w : Nat) : State := s.present (tableWord nbits w)

end Sys2Proof.Machine
end

