-- ==== Sys2Proof/Machine/Assembler.lean ====
section
/-!
DEFINITION. The assembler of `30_encoding.md` R49 to R52: one command a line, literals, comments, pseudo-commands, and
the lines of a program listing. Text is a list of characters. What R49 and R50 leave open (blanks, tabs, the case of a
hexadecimal digit, a separator inside quotes) is log entry 16; the listing text of an illegal word is log entry 19.
-/

namespace Sys2Proof.Machine

/-- The single quote of a character literal (R50). -/
def quoteChar : Char := Char.ofNat 39

/-- Blanks between the parts of a line: space and tab. -/
def isBlankChar (c : Char) : Bool := c.toNat == 32 || c.toNat == 9

/-- The text without the blanks at its two ends. -/
def trimBlanks (cs : List Char) : List Char :=
  ((cs.dropWhile isBlankChar).reverse.dropWhile isBlankChar).reverse

/-- The digits of a literal (R50), each at the place that is its value: the first two are the binary digits, the first
ten the decimal ones, all sixteen the hexadecimal ones. -/
def literalDigits : List Char := ['0', '1', '2', '3', '4', '5', '6', '7', '8', '9', 'A', 'B', 'C', 'D', 'E', 'F']

/-- The value of a character as a digit of the base, if it is one. A small letter counts as its capital, which is the
model's choice (log entry 16). -/
def digitOf (base : Nat) (c : Char) : Option Nat := (literalDigits.take base).idxOf? c.toUpper

/-- A number of at least one digit, most significant digit first (R50). -/
def numberValue (base : Nat) (cs : List Char) : Option Nat :=
  if cs = [] then none
  else (cs.mapM (digitOf base)).map fun ds => ds.foldl (fun n d => base * n + d) 0

/-- The integer a literal is written for (R50): a character in quotes, `0b...`, `0x...`, or a decimal with an optional
leading `-`. -/
def literalInt (cs : List Char) : Option Int :=
  match cs with
  | '0' :: 'b' :: ds => (numberValue 2 ds).map Int.ofNat
  | '0' :: 'x' :: ds => (numberValue 16 ds).map Int.ofNat
  | '-' :: ds => (numberValue 10 ds).map fun n => -(n : Int)
  | [a, c, b] =>
    if a = quoteChar ∧ b = quoteChar then
      if 32 ≤ c.toNat ∧ c.toNat ≤ 126 then some (c.toNat : Int) else none
    else (numberValue 10 cs).map Int.ofNat
  | _ => (numberValue 10 cs).map Int.ofNat

/-- A literal as the assembler takes it (R50): it refuses one outside [-2048, 2047], and no other. -/
def literal (cs : List Char) : Option Int :=
  match literalInt cs with
  | none => none
  | some a => if ArgFits a then some a else none

/-- `cs` put before the first piece. -/
def pushFirst (cs : List Char) : List (List Char) → List (List Char)
  | [] => [cs]
  | p :: ps => (cs ++ p) :: ps

/-- The text cut at every `sep`, but for one that stands between two quotes. -/
def pieces (sep : Char) : List Char → List (List Char)
  | [] => [[]]
  | [a] => if a = sep then [[], []] else [[a]]
  | [a, b] => if a = sep then [] :: pieces sep [b] else pushFirst [a] (pieces sep [b])
  | a :: b :: c :: rest =>
    if a = quoteChar ∧ c = quoteChar then pushFirst [a, b, c] (pieces sep rest)
    else if a = sep then [] :: pieces sep (b :: c :: rest)
    else pushFirst [a] (pieces sep (b :: c :: rest))

/-- The line without its comment: a comment starts at `;` and runs to the end of the line (R49). -/
def cutComment (cs : List Char) : List Char := (pieces ';' cs).headD []

/-- Every text of the list is a literal. -/
def literals : List (List Char) → Option (List Int)
  | [] => some []
  | cs :: rest =>
    match literal (trimBlanks cs), literals rest with
    | some a, some as => some (a :: as)
    | _, _ => none

/-- The arguments of a line: none, or literals with commas between them (R52). -/
def arguments (cs : List Char) : Option (List Int) :=
  if trimBlanks cs = [] then some [] else literals (pieces ',' cs)

/-- The command of a mnemonic, in capitals, and its arguments (R49, R52). A command takes one; a sequence any number. -/
def commandOf (mnemonic : List Char) (args : List Int) : Option Instr :=
  if mnemonic = ['E', 'N', 'C', 'S', 'E', 'Q'] then some (.encseq args)
  else if mnemonic = ['D', 'E', 'C', 'S', 'E', 'Q'] then some (.decseq args)
  else
    match args with
    | [a] =>
      if mnemonic = ['S', 'E', 'T', 'K', 'E', 'Y'] then some (.setkey a)
      else if mnemonic = ['E', 'N', 'C'] then some (.enc a)
      else if mnemonic = ['D', 'E', 'C'] then some (.dec a)
      else if mnemonic = ['C', 'O', 'N', 'S', 'T', 'R', 'U', 'C', 'T'] then some (.construct a)
      else none
    | _ => none

/-- What one line of a program is. -/
inductive AsmLine where
  | blank
  | command (i : Instr)
  | error
  deriving DecidableEq, Repr

/-- One line (R49). -/
def assembleLine (line : List Char) : AsmLine :=
  let text := trimBlanks (cutComment line)
  if text = [] then .blank
  else
    match arguments (text.dropWhile fun c => !isBlankChar c) with
    | none => .error
    | some args =>
      match commandOf (text.takeWhile fun c => !isBlankChar c) args with
      | none => .error
      | some i => .command i

/-- A program: the commands of its lines, if no line is in error. -/
def assemble : List (List Char) → Option (List Instr)
  | [] => some []
  | line :: rest =>
    match assembleLine line, assemble rest with
    | .blank, some is => some is
    | .command i, some is => some (i :: is)
    | _, _ => none

/-- One line of a program listing (R51): the command word, the assembler text, and the expected response word. -/
structure ListingLine where
  word : CommandWord
  text : List Char
  response : ResponseWord
  deriving DecidableEq, Repr

/-- The text that the spec's listings print for a word without a mnemonic (`95_test_vectors.md`, program P4, lines 10
and 11). R51 does not say what text such a line has: log entry 19. -/
def illegalWordText : List Char := ['(', 'i', 'l', 'l', 'e', 'g', 'a', 'l', ' ', 'w', 'o', 'r', 'd', ')']

/-- The text of a listing line stands for its word: it assembles to that one word (R51), or the word is illegal and the
text is the one the spec's listings print for such a word (the model's choice, log entry 19). -/
def ListingLine.textFits (l : ListingLine) : Bool :=
  match assembleLine l.text with
  | .command i => encode i == [l.word]
  | .blank => false
  | .error => l.text == illegalWordText && decode l.word == .illegalCommand

/-- The listing line holds in state `s`: its text stands for its word, and the word's response is the expected one. The
answer is the state after it. -/
def ListingLine.check (l : ListingLine) (s : State) : Option State :=
  if l.textFits then
    match step (s.present l.word) with
    | .next t => if t.responses.getLast?.map Response.word = some l.response then some t else none
    | .fault _ => none
    | .refused _ => none
  else none

end Sys2Proof.Machine
end

