-- ==== Sys2Proof/Machine/Instances.lean ====
section
/-!
DEFINITION. Several engine instances: a product of independent single-instance models (`10_state.md` R15;
`20_memory.md` R36; `60_exceptions.md` R135; `70_reset_and_hazards.md` R143). They share only the constant tables.
-/

namespace Sys2Proof.Machine

/-- One step of instance `n` of a platform; the other instances do not move. Where there is no instance `n`, nothing
happens. -/
def stepInstance (n : Nat) (ms : List State) : Host.Outcome (List State) Fault Refusal :=
  match ms[n]? with
  | none => .next ms
  | some s =>
    match step s with
    | .next t => .next (ms.set n t)
    | .fault r => .fault r
    | .refused r => .refused r

/-- The platform's instances take steps in the order of the list. -/
def runInstances : List Nat → List State → Host.Outcome (List State) Fault Refusal
  | [], ms => .next ms
  | n :: ns, ms =>
    match stepInstance n ms with
    | .next ms' => runInstances ns ms'
    | .fault r => .fault r
    | .refused r => .refused r

end Sys2Proof.Machine
end

