-- ==== Sys2Proof/Machine/Flags.lean ====
section
/-!
DEFINITION. The one flag, `KEYED`, and the registers it guards (`10_state.md` R16 to R20, R23). No command computes a
condition code, and errors are not latched in a flag (R23).
-/

namespace Sys2Proof.Machine

/-- The flag `KEYED` (R20). -/
def Engine.isKeyed : Engine → Bool
  | .unkeyed => false
  | .keyed _ _ _ => true

/-- The register `KEY`: a value exactly while `KEYED = 1` (R17, R20). -/
def Engine.keyRegister : Engine → Option KeyBits
  | .unkeyed => none
  | .keyed key _ _ => some key

/-- The register `K1`: a value exactly while `KEYED = 1` (R18, R20). -/
def Engine.k1Register : Engine → Option Block
  | .unkeyed => none
  | .keyed _ k1 _ => some k1

/-- The register `K2`: a value exactly while `KEYED = 1` (R19, R20). -/
def Engine.k2Register : Engine → Option Block
  | .unkeyed => none
  | .keyed _ _ k2 => some k2

end Sys2Proof.Machine
end

