-- ==== Sys2Proof/Safety.lean ====
section
/-!
DEFINITION. The terms claims about runs use: the state invariant (`10_state.md` R24), what a response that is no success
carries (`30_encoding.md` R47), a run with no error (`60_exceptions.md` R129), runs of many steps, and where
the two rotations of the key schedule lead (`41_key_schedule.md` R76, R78).
-/

namespace Sys2Proof.Machine

/-- A keyed engine holds the subkeys of the key it holds, and that key is legal (R24). -/
def Engine.SubkeysMatchKey (c : Tables) : Engine → Prop
  | .unkeyed => True
  | .keyed key k1 k2 => (k1, k2) = keySchedule c (intOf key) ∧ intOf key ≤ 1023

/-- The state invariant of R24, for the tables of this engine. -/
def State.Inv (s : State) : Prop := s.engine.SubkeysMatchKey cfg

/-- No response with an error status carries data (R47, R121). -/
def State.ErrorsCarryNoData (s : State) : Prop := ∀ r ∈ s.responses, r.status ≠ .ok → r.data = 0

/-- The host has had no error (R129): what a claim about a correct host program takes as its postcondition. -/
def State.AllOk (s : State) : Prop := ∀ r ∈ s.responses, r.status = .ok

/-- `k` steps of the machine (R146). -/
abbrev runSteps (k : Nat) (s : State) : Host.Outcome State Fault Refusal := Host.Core.run Sys2Proof.core k s

/-- The move is a `SETKEY`, or a `CONSTRUCT`, of a legal key, as a word or at the abstract level (R40, R139). -/
def HostMove.KeysEngine (m : HostMove) : Prop :=
  ∃ a, KeyInRange a ∧ (m = .command (.setkey a) ∨ m = .command (.construct a) ∨
    ∃ w, m = .word w ∧ decode w = .legal (.setkey a))

/-- The index in P10's output that index `q` of the P8 input holds after `r` rotations by one of each 5-bit half. -/
def rotatedIndex (r q : Nat) : Nat :=
  if q < 5 then (q + r) % 5 else 5 + (q - 5 + r) % 5

end Sys2Proof.Machine
end

