-- ==== Sys2Proof/Certificates/Slice0/Obligations.lean ====
section
/-!
DEFINITION. The statements for the provers, in the order of the spec's files. Each docstring names the rule it
formalises. `exec` and `step` are the machine with the default tables; a statement that names a record `c` holds for
every record of tables it is said for.
-/

open Sys2Proof Sys2Proof.Machine

/-! ### Reset and the registers (`10_state.md`, `70_reset_and_hazards.md`) -/

/-- R27: after reset `KEYED = 0` and `KEY`, `K1`, `K2` hold no value; so it is in the reset state, and after the host's
reset move in every state, which touches nothing else and gives no response (R137). -/
def Obligations.ResetLeavesTheEngineUnkeyed : Prop :=
  (State.reset.engine.isKeyed = false ∧ State.reset.engine.keyRegister = none ∧
    State.reset.engine.k1Register = none ∧ State.reset.engine.k2Register = none) ∧
  ∀ (s : State) (rest : List HostMove), s.moves = .reset :: rest →
    ∃ t, step s = .next t ∧ t = { s with moves := rest, engine := t.engine } ∧ t.engine.isKeyed = false ∧
      t.engine.keyRegister = none ∧ t.engine.k1Register = none ∧ t.engine.k2Register = none

/-- R24: every step keeps the state invariant, from every state that has it. -/
def Obligations.EveryStepKeepsSubkeysMatchingKey : Prop :=
  ∀ s t : State, s.Inv → step s = .next t → t.Inv

/-- The reset state has the invariant of R24, and no response with an error status and data (R47). -/
def Obligations.ResetStateMeetsTheInvariants : Prop :=
  State.reset.Inv ∧ State.reset.ErrorsCarryNoData

/-- R24: in every state reached from reset by any sequence of the host's moves, a keyed engine holds the subkeys of the
key it holds, and that key is legal. -/
def Obligations.ReachableKeyedStatesHoldTheirSchedule : Prop :=
  ∀ (ms : List HostMove) (stops : Bool) (k : Nat) (t : State) (key : KeyBits) (k1 k2 : Block),
    runSteps k { State.reset with moves := ms, stopsAtError := stops } = .next t →
    t.engine = .keyed key k1 k2 → (k1, k2) = keySchedule cfg (intOf key) ∧ intOf key ≤ 1023

/-- R26: nothing but a `SETKEY` (or `CONSTRUCT`) of a legal key, and reset, changes the engine's state. -/
def Obligations.OnlySetkeyAndResetChangeTheEngine : Prop :=
  ∀ s t : State, step s = .next t → t.engine ≠ s.engine →
    ∃ m rest, s.moves = m :: rest ∧ (m = .reset ∨ m.KeysEngine)

/-- R20: `KEYED` is never cleared by any command, only by reset. -/
def Obligations.OnlyResetClearsKeyed : Prop :=
  ∀ s t : State, step s = .next t → s.engine.isKeyed = true → t.engine.isKeyed = false →
    ∃ rest, s.moves = .reset :: rest

/-- R26, the frame of all six instructions: the host's other fields stay, responses are only added to, the results only
by a sequence, and the engine's state is written by `SETKEY` and `CONSTRUCT` alone. -/
def Obligations.FrameOfEveryInstruction : Prop :=
  ∀ (i : Instr) (s t : State), exec i s = .next t →
    t.moves = s.moves ∧ t.stopsAtError = s.stopsAtError ∧ (∃ rs, t.responses = s.responses ++ rs) ∧
    ((∀ vs, i ≠ .encseq vs ∧ i ≠ .decseq vs) → t.results = s.results) ∧
    ((∀ a, i ≠ .setkey a ∧ i ≠ .construct a) → t.engine = s.engine)

/-- R34: a command presented again, with the same argument, gives the same response and leaves the same state. -/
def Obligations.RepeatedCommandChangesNothing : Prop :=
  ∀ (c : Tables) (p : Op × Int) (e : Engine), engineStep c p (engineStep c p e).1 = engineStep c p e

/-! ### Instances (`20_memory.md`) -/

/-- R36: whatever the interleaving of several instances' steps, each instance ends as if it had run alone. -/
def Obligations.InterleavedInstancesRunAsIfAlone : Prop :=
  ∀ (schedule : List Nat) (ms : List State), ∃ ms', runInstances schedule ms = .next ms' ∧
    ms'.length = ms.length ∧
    ∀ (n : Nat) (s : State), ms[n]? = some s →
      ∃ t, runSteps (schedule.count n) s = .next t ∧ ms'[n]? = some t

/-! ### Words and commands (`30_encoding.md`) -/

/-- R45: the decoder by the fields of the word, the encoder by its formula, and `decode(encode(op, a)) = (op, a)` for
every operation and every argument of the 12-bit field. -/
def Obligations.DecodeOfEncodeIsTheCommand : Prop :=
  (∀ w : CommandWord, decode w =
    if (w.extractLsb' 12 4).toNat = 1 then .legal (.setkey (w.extractLsb' 0 12).toInt)
    else if (w.extractLsb' 12 4).toNat = 2 then .legal (.enc (w.extractLsb' 0 12).toInt)
    else if (w.extractLsb' 12 4).toNat = 3 then .legal (.dec (w.extractLsb' 0 12).toInt)
    else .illegalCommand) ∧
  ∀ (op : Op) (a : Int), -2048 ≤ a → a ≤ 2047 →
    ((encodeCommand op a).toNat : Int) = (match op with | .setkey => 1 | .enc => 2 | .dec => 3) * 4096 + a % 4096 ∧
    decode (encodeCommand op a) = .legal (Instr.ofCommand (op, a))

/-- R52, R45: the words of a well-formed instruction, a pseudo-command among them, decode one by one to the commands it
expands to, in order. -/
def Obligations.WordsDecodeToTheExpansion : Prop :=
  ∀ i : Instr, i.WellFormed = true →
    (encode i).map decode = i.commands.map fun p => Decoded.legal (Instr.ofCommand p)

/-- R41, R43: a word that decodes is the one word of its instruction, so no bit of a legal word is without meaning. -/
def Obligations.LegalWordIsTheWordOfItsInstruction : Prop :=
  ∀ (w : CommandWord) (i : Instr), decode w = .legal i → i.WellFormed = true ∧ encode i = [w]

/-- R42: the opcode map in match and mask form, and nothing else selects an operation. -/
def Obligations.OpcodeMapByMatchAndMask : Prop :=
  ∀ w : CommandWord,
    (w &&& 0xF000#16 = 0x1000#16 ↔ ∃ a, decode w = .legal (.setkey a)) ∧
    (w &&& 0xF000#16 = 0x2000#16 ↔ ∃ a, decode w = .legal (.enc a)) ∧
    (w &&& 0xF000#16 = 0x3000#16 ↔ ∃ a, decode w = .legal (.dec a)) ∧
    ((w &&& 0xF000#16 ≠ 0x1000#16 ∧ w &&& 0xF000#16 ≠ 0x2000#16 ∧ w &&& 0xF000#16 ≠ 0x3000#16) ↔
      decode w = .illegalCommand)

/-- R54, R44: the worked encodings of the spec, and the all-zero and the all-ones word. -/
def Obligations.WorkedEncodings : Prop :=
  decode 0x12E1#16 = .legal (.setkey 737) ∧ decode 0x2041#16 = .legal (.enc 65) ∧
  decode 0x3046#16 = .legal (.dec 70) ∧ decode 0x1FFF#16 = .legal (.setkey (-1)) ∧
  decode 0x1400#16 = .legal (.setkey 1024) ∧ decode 0x2100#16 = .legal (.enc 256) ∧
  decode 0x2FFF#16 = .legal (.enc (-1)) ∧ decode 0x0000#16 = .illegalCommand ∧ decode 0xFFFF#16 = .illegalCommand

/-- R46: the response word and its fields; status codes 0 to 4 and no other; one response for every command word. -/
def Obligations.ResponseWordAndItsFields : Prop :=
  (∀ r : Response, r.word.toNat = r.status.code * 256 + r.data.toNat ∧
    (r.word.extractLsb' 8 3).toNat = r.status.code ∧ r.word.extractLsb' 0 8 = r.data ∧ r.status.code ≤ 4) ∧
  (Status.code .ok = 0 ∧ Status.code .invalidKey = 1 ∧ Status.code .invalidByteValue = 2 ∧
    Status.code .noKey = 3 ∧ Status.code .illegalCommand = 4) ∧
  ∀ (s : State) (w : CommandWord) (rest : List HostMove), s.moves = .word w :: rest →
    ∃ t r, step s = .next t ∧ t.responses = s.responses ++ [r] ∧
      (r.status ≠ .ok → r.data = 0) ∧ (∀ a, decode w = .legal (.setkey a) → r.data = 0)

/-- R40, R35: running the words of any list of commands is running the commands: rules R41 to R47 are only transport.
One response per command, in command order, each from the state the command before it left. -/
def Obligations.RunningWordsIsRunningCommands : Prop :=
  ∀ (ps : List (Op × Int)) (s : State) (rest : List HostMove), (∀ p ∈ ps, ArgFits p.2) →
    s.moves = (ps.map fun p => HostMove.word (encodeCommand p.1 p.2)) ++ rest →
    (runCommands cfg false ps s.engine).2.length = ps.length ∧
    runSteps ps.length s = .next { s with
      moves := rest
      engine := (runCommands cfg false ps s.engine).1
      responses := s.responses ++ (runCommands cfg false ps s.engine).2 }

/-! ### Primitives and tables (`40_primitives_and_tables.md`) -/

/-- R56, R57: slices and concatenation by index, and that cutting and joining gives the vector back. -/
def Obligations.SliceAndConcatenationByIndex : Prop :=
  (∀ (n : Nat) (v : BitVec n) (i j k : Nat), i ≤ j → j ≤ n → k < j - i →
    (slice v i j).getMsbD k = v.getMsbD (i + k)) ∧
  (∀ (m n : Nat) (v : BitVec m) (w : BitVec n) (k : Nat), k < m + n →
    (v ++ w).getMsbD k = if k < m then v.getMsbD k else w.getMsbD (k - m)) ∧
  (∀ (n : Nat) (v : BitVec n) (i : Nat) (h : i - 0 + (n - i) = n), i ≤ n →
    (slice v 0 i ++ slice v i n).cast h = v)

/-- R58, R59: `bitsOf` and `intOf`, most significant bit first, are exact and inverse to each other. -/
def Obligations.BitsAndIntegersMostSignificantFirst : Prop :=
  (∀ (n x i : Nat), x < 2 ^ n → i < n → (bitsOf n x).getMsbD i = decide (x / 2 ^ (n - 1 - i) % 2 = 1)) ∧
  (∀ (n : Nat) (v : BitVec n), intOf v = ∑ i : Fin n, (v.getMsbD i).toNat * 2 ^ (n - 1 - i.val)) ∧
  (∀ (n : Nat) (v : BitVec n), intOf v < 2 ^ n ∧ bitsOf n (intOf v) = v) ∧
  ∀ (n x : Nat), x < 2 ^ n → intOf (bitsOf n x) = x

/-- R60: `perm` gathers through the table's 1-based positions, every one of which the vector has. -/
def Obligations.PermGathersByPosition : Prop :=
  ∀ (m n : Nat) (T : Vector Nat m) (v : BitVec n), PositionsIn n T → ∀ i : Fin m,
    T[i] - 1 < n ∧ (perm T v).getMsbD i = v.getMsbD (T[i] - 1)

/-- R61: `unperm` scatters through a permutation, and undoes `perm` on both sides. -/
def Obligations.UnpermScattersAndInvertsPerm : Prop :=
  ∀ (n : Nat) (T : Vector Nat n) (v : BitVec n), IsPermutation T →
    (∀ i : Fin n, (unperm T v).getMsbD (T[i] - 1) = v.getMsbD i) ∧
    unperm T (perm T v) = v ∧ perm T (unperm T v) = v

/-- R62: the rotation by index, and that five of them give a 5-bit vector back. -/
def Obligations.RotationByOnePosition : Prop :=
  (∀ (n : Nat) (v : BitVec n) (i : Nat), i < n → (rotl1 v).getMsbD i = v.getMsbD ((i + 1) % n)) ∧
  ∀ v : BitVec 5, rotl1 (rotl1 (rotl1 (rotl1 (rotl1 v)))) = v

/-- R63: exclusive-or by index, and its laws. -/
def Obligations.ExclusiveOrByIndex : Prop :=
  (∀ (n : Nat) (v w : BitVec n) (i : Nat), i < n →
    (xor v w).getMsbD i = if v.getMsbD i = w.getMsbD i then false else true) ∧
  ∀ (n : Nat) (v w : BitVec n), xor v w = xor w v ∧ xor (xor v w) w = v ∧ xor v v = 0#n

/-- R66, R71: in a well-formed `cfg`, FP undoes IP and IP undoes FP, so the scatter through one is the gather through
the other. -/
def Obligations.FinalPermutationIsTheInverseOfTheInitialOne : Prop :=
  ∀ c : Tables, c.WF → ∀ v : Block,
    perm c.fp (perm c.ip v) = v ∧ perm c.ip (perm c.fp v) = v ∧
    unperm c.fp v = perm c.ip v ∧ unperm c.ip v = perm c.fp v

/-- R64, R65, R66: the default tables are well formed. That the engine has these tables is the spec's decision D1, from
general knowledge (log entry 1). -/
def Obligations.DefaultTablesAreWellFormed : Prop := cfg.WF

/-! ### Key schedule (`41_key_schedule.md`) -/

/-- R73, R80: `SETKEY a` on every state and every integer. -/
def Obligations.SetkeyFollowsItsRule : Prop :=
  (∀ (a : Int) (s : State), 0 ≤ a → a ≤ 1023 →
    exec (.setkey a) s = .next { s with
      engine := .keyed (bitsOf 10 a.toNat) (keySchedule cfg a.toNat).1 (keySchedule cfg a.toNat).2
      responses := s.responses ++ [⟨.ok, 0⟩] }) ∧
  (∀ (a : Int) (s : State), a < 0 ∨ a > 1023 →
    exec (.setkey a) s = .next { s with responses := s.responses ++ [⟨.invalidKey, 0⟩] }) ∧
  Response.word ⟨.ok, 0⟩ = 0x000#11 ∧ Response.word ⟨.invalidKey, 0⟩ = 0x100#11

/-- R52, R81: `CONSTRUCT k` does what `SETKEY k` does, keyed or not. -/
def Obligations.ConstructFollowsTheSetkeyRule : Prop :=
  (∀ (k : Int) (s : State), 0 ≤ k → k ≤ 1023 →
    exec (.construct k) s = .next { s with
      engine := .keyed (bitsOf 10 k.toNat) (keySchedule cfg k.toNat).1 (keySchedule cfg k.toNat).2
      responses := s.responses ++ [⟨.ok, 0⟩] }) ∧
  ∀ (k : Int) (s : State), k < 0 ∨ k > 1023 →
    exec (.construct k) s = .next { s with responses := s.responses ++ [⟨.invalidKey, 0⟩] }

/-- R79, with R74 to R78: each bit of each subkey is the key bit that the tables and the rotations lead to, one
rotation for K1 and two in total for K2, for every well-formed `cfg`. -/
def Obligations.KeyScheduleBitByBit : Prop :=
  ∀ (c : Tables) (a : Nat) (i : Fin 8), c.WF → a ≤ 1023 →
    (keySchedule c a).1.getMsbD i =
      decide (a / 2 ^ (9 - (c.p10.toList.getD (rotatedIndex 1 (c.p8[i] - 1)) 0 - 1)) % 2 = 1) ∧
    (keySchedule c a).2.getMsbD i =
      decide (a / 2 ^ (9 - (c.p10.toList.getD (rotatedIndex 2 (c.p8[i] - 1)) 0 - 1)) % 2 = 1)

/-- R119 (c), (d), what the spec derives under the default tables (log entry 1): the key bit of weight 256 reaches neither subkey, and exactly eight keys
give equal subkeys. -/
def Obligations.KeyBitOfWeight256ReachesNoSubkey : Prop :=
  (∀ k : Nat, k ≤ 1023 → keySchedule cfg k = keySchedule cfg (k ^^^ 256)) ∧
  ∀ k : Nat, k ≤ 1023 →
    ((keySchedule cfg k).1 = (keySchedule cfg k).2 ↔ k ∈ [0, 232, 256, 488, 535, 767, 791, 1023])

/-! ### Round function (`42_round_function.md`) -/

/-- R85: the first two bits of the group select the row, the last two the column, the first of each pair weighing 2.
Row and column always exist, so the lookup has no out-of-range case. -/
def Obligations.SboxRowFromTheFirstTwoBits : Prop :=
  (∀ (S : Vector (Vector (Fin 4) 4) 4) (g : Half) (row col : Fin 4),
    row.val = 2 * (g.getMsbD 0).toNat + (g.getMsbD 1).toNat →
    col.val = 2 * (g.getMsbD 2).toNat + (g.getMsbD 3).toNat → sbox S g = S[row][col].val) ∧
  ∀ g : Half, ∃ row col : Fin 4,
    row.val = 2 * (g.getMsbD 0).toNat + (g.getMsbD 1).toNat ∧
    col.val = 2 * (g.getMsbD 2).toNat + (g.getMsbD 3).toNat

/-- R82, with R83 to R87: each bit of `functionK(h, K)`, from the expanded half against the subkey, the two lookups,
the unpacking of their values and P4, for every well-formed `cfg`. -/
def Obligations.RoundFunctionBitByBit : Prop :=
  ∀ (c : Tables) (h : Half) (K : Block) (x : Nat → Bool) (row1 col1 row2 col2 : Fin 4) (j : Fin 4), c.WF →
    (∀ i : Fin 8, x i = (h.getMsbD (c.ep[i] - 1) != K.getMsbD i)) →
    row1.val = 2 * (x 0).toNat + (x 1).toNat → col1.val = 2 * (x 2).toNat + (x 3).toNat →
    row2.val = 2 * (x 4).toNat + (x 5).toNat → col2.val = 2 * (x 6).toNat + (x 7).toNat →
    (functionK c h K).getMsbD j =
      decide ([c.sbox1[row1][col1].val / 2, c.sbox1[row1][col1].val % 2,
        c.sbox2[row2][col2].val / 2, c.sbox2[row2][col2].val % 2].getD (c.p4[j] - 1) 0 = 1)

/-- R89, R90: the complete tables of the round function for the subkeys of all zeros and of all ones, which the spec
derives under the default tables (log entry 1). -/
def Obligations.RoundFunctionTables : Prop :=
  (∀ h : Half, (functionK cfg h 0b00000000#8).toNat =
    [0b1000, 0b0010, 0b0010, 0b0101, 0b1111, 0b1100, 0b0011, 0b1001,
      0b1101, 0b1111, 0b0001, 0b1110, 0b1000, 0b1001, 0b0100, 0b0111].getD h.toNat 0) ∧
  ∀ h : Half, (functionK cfg h 0b11111111#8).toNat =
    [0b0111, 0b0100, 0b1001, 0b1000, 0b1110, 0b0001, 0b1111, 0b1101,
      0b1001, 0b0011, 0b1100, 0b1111, 0b0101, 0b0010, 0b0010, 0b1000].getD h.toNat 0

/-! ### Encryption and decryption (`43_encrypt.md`, `44_decrypt.md`) -/

/-- R91, R96: `ENC a` on every state and every integer. -/
def Obligations.EncFollowsItsRule : Prop :=
  (∀ (a : Int) (s : State) (key : KeyBits) (k1 k2 : Block), s.engine = .keyed key k1 k2 → 0 ≤ a → a ≤ 255 →
    exec (.enc a) s = .next { s with
      responses := s.responses ++ [⟨.ok, bitsOf 8 (encryptBlock cfg a.toNat k1 k2)⟩] }) ∧
  (∀ (a : Int) (s : State), s.engine = .unkeyed →
    exec (.enc a) s = .next { s with responses := s.responses ++ [⟨.noKey, 0⟩] }) ∧
  (∀ (a : Int) (s : State) (key : KeyBits) (k1 k2 : Block), s.engine = .keyed key k1 k2 → a < 0 ∨ a > 255 →
    exec (.enc a) s = .next { s with responses := s.responses ++ [⟨.invalidByteValue, 0⟩] }) ∧
  Response.word ⟨.invalidByteValue, 0⟩ = 0x200#11

/-- R98, R104: `DEC a` on every state and every integer. -/
def Obligations.DecFollowsItsRule : Prop :=
  (∀ (a : Int) (s : State) (key : KeyBits) (k1 k2 : Block), s.engine = .keyed key k1 k2 → 0 ≤ a → a ≤ 255 →
    exec (.dec a) s = .next { s with
      responses := s.responses ++ [⟨.ok, bitsOf 8 (decryptBlock cfg a.toNat k1 k2)⟩] }) ∧
  (∀ (a : Int) (s : State), s.engine = .unkeyed →
    exec (.dec a) s = .next { s with responses := s.responses ++ [⟨.noKey, 0⟩] }) ∧
  (∀ (a : Int) (s : State) (key : KeyBits) (k1 k2 : Block), s.engine = .keyed key k1 k2 → a < 0 ∨ a > 255 →
    exec (.dec a) s = .next { s with responses := s.responses ++ [⟨.invalidByteValue, 0⟩] }) ∧
  Response.word ⟨.invalidByteValue, 0⟩ = 0x200#11

/-- R92, with R93 to R95: `encryptBlock` is IP, two rounds on the halves, the right half first, and FP. -/
def Obligations.EncryptionIsTwoRounds : Prop :=
  ∀ (c : Tables) (a : Nat) (k1 k2 : Block), a ≤ 255 →
    ∃ l0 r0 l1 r2 : Half,
      perm c.ip (bitsOf 8 a) = l0 ++ r0 ∧
      l1 = xor l0 (functionK c r0 k1) ∧
      r2 = xor r0 (functionK c l1 k2) ∧
      encryptBlock c a k1 k2 = intOf (perm c.fp (r2 ++ l1)) ∧ encryptBlock c a k1 k2 ≤ 255

/-- R99, with R100 to R103: `decryptBlock` undoes FP, runs the rounds with the subkeys in reverse order, and undoes IP
on `Ro ++ Lo` (`90_conflicts.md` C1). -/
def Obligations.DecryptionIsTwoRoundsBackwards : Prop :=
  ∀ (c : Tables) (a : Nat) (k1 k2 : Block), a ≤ 255 →
    ∃ ld rd lo ro : Half,
      unperm c.fp (bitsOf 8 a) = ld ++ rd ∧
      lo = xor ld (functionK c rd k2) ∧
      ro = xor rd (functionK c lo k1) ∧
      decryptBlock c a k1 k2 = intOf (unperm c.ip (ro ++ lo)) ∧ decryptBlock c a k1 k2 ≤ 255

/-! ### Sequences (`45_sequences.md`) -/

/-- R107: the result of `ENCSEQ` and of `DECSEQ` on a keyed engine whose units are all legal: one output unit per unit,
in order, each by itself; no state written. It holds whether or not the host stops at errors. -/
def Obligations.SequenceOfLegalUnits : Prop :=
  ∀ (s : State) (key : KeyBits) (k1 k2 : Block) (vs : List Int), s.engine = .keyed key k1 k2 →
    (∀ v ∈ vs, 0 ≤ v ∧ v ≤ 255) →
    exec (.encseq vs) s = .next { s with
      responses := s.responses ++ vs.map fun v => ⟨.ok, bitsOf 8 (encryptBlock cfg v.toNat k1 k2)⟩
      results := s.results ++ [.units (vs.map fun v => bitsOf 8 (encryptBlock cfg v.toNat k1 k2))] } ∧
    exec (.decseq vs) s = .next { s with
      responses := s.responses ++ vs.map fun v => ⟨.ok, bitsOf 8 (decryptBlock cfg v.toNat k1 k2)⟩
      results := s.results ++ [.units (vs.map fun v => bitsOf 8 (decryptBlock cfg v.toNat k1 k2))] }

/-- R108: a sequence with an illegal unit, or on an unkeyed engine, has that error as its result and no output list;
the engine's state is the same whether the host stops at the error or goes on; the empty sequence gives the empty
list in every state. -/
def Obligations.SequenceErrors : Prop :=
  (∀ (i : List Int → Instr) (s : State) (key : KeyBits) (k1 k2 : Block) (us ws : List Int) (v : Int),
    (i = .encseq ∨ i = .decseq) → s.engine = .keyed key k1 k2 → (∀ u ∈ us, 0 ≤ u ∧ u ≤ 255) → (v < 0 ∨ v > 255) →
    ∃ rs, exec (i (us ++ v :: ws)) s = .next { s with
        responses := s.responses ++ rs, results := s.results ++ [.failed .invalidByteValue] } ∧
      rs.length = if s.stopsAtError then us.length + 1 else (us ++ v :: ws).length) ∧
  (∀ (i : List Int → Instr) (s : State) (v : Int) (ws : List Int),
    (i = .encseq ∨ i = .decseq) → s.engine = .unkeyed →
    ∃ rs, exec (i (v :: ws)) s = .next { s with
        responses := s.responses ++ rs, results := s.results ++ [.failed .noKey] } ∧
      rs.length = if s.stopsAtError then 1 else (v :: ws).length) ∧
  ∀ (i : List Int → Instr) (s : State), (i = .encseq ∨ i = .decseq) →
    exec (i []) s = .next { s with results := s.results ++ [.units []] }

/-! ### The contract (`46_contract_properties.md`) -/

/-- R111: decryption undoes encryption, for every well-formed `cfg`, every pair of subkeys (so those of every key) and
every unit; and the same of the commands after a successful `SETKEY`. -/
def Obligations.DecryptionUndoesEncryption : Prop :=
  (∀ (c : Tables) (k1 k2 : Block) (b : Nat), c.WF → b ≤ 255 →
    decryptBlock c (encryptBlock c b k1 k2) k1 k2 = b) ∧
  ∀ (c : Tables) (e e' : Engine) (k b : Int) (d : Block), c.WF →
    engineStep c (.setkey, k) e = (e', ⟨.ok, 0⟩) → (engineStep c (.enc, b) e').2 = ⟨.ok, d⟩ →
    (engineStep c (.dec, (d.toNat : Int)) e').2 = ⟨.ok, bitsOf 8 b.toNat⟩ ∧ b = b.toNat

/-- R112: encryption undoes decryption. -/
def Obligations.EncryptionUndoesDecryption : Prop :=
  ∀ (c : Tables) (k1 k2 : Block) (b : Nat), c.WF → b ≤ 255 →
    encryptBlock c (decryptBlock c b k1 k2) k1 k2 = b

/-- R113: in any list of command words, two data commands that are equal, with no successful `SETKEY` between them,
give equal responses. -/
def Obligations.EqualDataCommandsGiveEqualResponses : Prop :=
  ∀ (op : Op) (a : Int) (ws : List CommandWord) (rest : List HostMove) (s : State), op ≠ .setkey → ArgFits a →
    s.moves = .word (encodeCommand op a) :: (ws.map HostMove.word ++ .word (encodeCommand op a) :: rest) →
    (∀ w ∈ ws, ∀ k, decode w = .legal (.setkey k) → ¬ KeyInRange k) →
    ∃ t r rs, runSteps (ws.length + 2) s = .next t ∧ rs.length = ws.length ∧ t.moves = rest ∧
      t.engine = s.engine ∧ t.responses = s.responses ++ (r :: rs ++ [r])

/-- R114: for fixed subkeys, encryption is a bijection of the 256 units, and so is decryption. -/
def Obligations.BlockFunctionsAreBijections : Prop :=
  ∀ (c : Tables) (k1 k2 : Block), c.WF →
    Function.Bijective (fun b : Block => bitsOf 8 (encryptBlock c b.toNat k1 k2)) ∧
    Function.Bijective (fun b : Block => bitsOf 8 (decryptBlock c b.toNat k1 k2))

/-- R115: there are two keys and a unit that the keys encrypt to different units. It depends on the contents of the
tables, and holds of the default ones (log entry 1). -/
def Obligations.EncryptionDependsOnTheKey : Prop :=
  ∃ (k k' b : Nat), k ≤ 1023 ∧ k' ≤ 1023 ∧ b ≤ 255 ∧ k ≠ k' ∧
    encryptBlock cfg b (keySchedule cfg k).1 (keySchedule cfg k).2 ≠
      encryptBlock cfg b (keySchedule cfg k').1 (keySchedule cfg k').2

/-- R116: the boundaries of the two ranges. -/
def Obligations.BoundaryKeysAndUnits : Prop :=
  (∀ (s : State) (a : Int), a = 0 ∨ a = 1023 →
    ∃ e, exec (.setkey a) s = .next { s with engine := e, responses := s.responses ++ [⟨.ok, 0⟩] }) ∧
  (∀ (s : State) (a : Int), a = -1 ∨ a = 1024 →
    exec (.setkey a) s = .next { s with responses := s.responses ++ [⟨.invalidKey, 0⟩] }) ∧
  (∀ (s : State) (i : Int → Instr) (a : Int), i = .enc ∨ i = .dec → s.engine.isKeyed = true → a = 0 ∨ a = 255 →
    ∃ d, exec (i a) s = .next { s with responses := s.responses ++ [⟨.ok, d⟩] }) ∧
  ∀ (s : State) (i : Int → Instr) (a : Int), i = .enc ∨ i = .dec → s.engine.isKeyed = true → a = -1 ∨ a = 256 →
    exec (i a) s = .next { s with responses := s.responses ++ [⟨.invalidByteValue, 0⟩] }

/-- R118: decrypting an encrypted sequence gives the sequence back, of any length, for every well-formed `cfg`, whether
or not the host stops at errors. -/
def Obligations.SequenceRoundTrip : Prop :=
  ∀ (c : Tables) (stop : Bool) (key : KeyBits) (k1 k2 : Block) (vs : List Int), c.WF →
    (∀ v ∈ vs, 0 ≤ v ∧ v ≤ 255) →
    ∃ ds : List Block,
      seqResult (runCommands c stop (vs.map fun v => (.enc, v)) (.keyed key k1 k2)).2 = .units ds ∧
      seqResult (runCommands c stop (ds.map fun d => (.dec, (d.toNat : Int))) (.keyed key k1 k2)).2 =
        .units (vs.map fun v => bitsOf 8 v.toNat)

/-! ### Errors (`60_exceptions.md`) -/

/-- R122, R123, R124: exactly when each error of a command is raised, and that a command that raises one writes nothing
and answers with no data. -/
def Obligations.EachErrorExactlyWhenItsRuleSays : Prop :=
  ∀ (a : Int) (e : Engine),
    ((engineStep cfg (.setkey, a) e).2.status = .invalidKey ↔ a < 0 ∨ a > 1023) ∧
    ((engineStep cfg (.enc, a) e).2.status = .noKey ↔ e.isKeyed = false) ∧
    ((engineStep cfg (.dec, a) e).2.status = .noKey ↔ e.isKeyed = false) ∧
    ((engineStep cfg (.enc, a) e).2.status = .invalidByteValue ↔ e.isKeyed = true ∧ (a < 0 ∨ a > 255)) ∧
    ((engineStep cfg (.dec, a) e).2.status = .invalidByteValue ↔ e.isKeyed = true ∧ (a < 0 ∨ a > 255)) ∧
    ∀ op : Op, (engineStep cfg (op, a) e).2.status ≠ .ok →
      (engineStep cfg (op, a) e).1 = e ∧ (engineStep cfg (op, a) e).2.data = 0

/-- R125: a word whose `opc` field is not 1, 2 or 3 raises `IllegalCommand` in every state and writes nothing. -/
def Obligations.IllegalWordIsReported : Prop :=
  ∀ (s : State) (w : CommandWord) (rest : List HostMove), s.moves = .word w :: rest →
    (w.extractLsb' 12 4).toNat ≠ 1 → (w.extractLsb' 12 4).toNat ≠ 2 → (w.extractLsb' 12 4).toNat ≠ 3 →
    step s = .next { s with moves := rest, responses := s.responses ++ [⟨.illegalCommand, 0⟩] }

/-- R127: at most one error per command, checked in the spec's order: the rule's two examples, the first for every illegal
unit of `ENC` and `DEC`, the second as it stands. That no `SETKEY` has a `NoKey` check is in `SetkeyFollowsItsRule`, and
that an illegal word is reported whatever its argument and the state in `IllegalWordIsReported`. -/
def Obligations.OrderOfErrorChecks : Prop :=
  (∀ (s : State) (i : Int → Instr) (a : Int), i = .enc ∨ i = .dec → s.engine = .unkeyed → a < 0 ∨ a > 255 →
    exec (i a) s = .next { s with responses := s.responses ++ [⟨.noKey, 0⟩] }) ∧
  ∀ s : State, s.engine = .unkeyed →
    exec (.setkey 1024) s = .next { s with responses := s.responses ++ [⟨.invalidKey, 0⟩] }

/-- R128: a command, as a word or at the abstract level, whose response has an error status has changed nothing but
that the host has the response, and the response carries no data. -/
def Obligations.ErrorsWriteNoState : Prop :=
  ∀ (s : State) (m : HostMove) (rest : List HostMove), s.moves = m :: rest →
    ((∃ w, m = .word w) ∨ ∃ p, m = .command (Instr.ofCommand p)) →
    ∃ t r, step s = .next t ∧ t.responses = s.responses ++ [r] ∧
      (r.status ≠ .ok → t = { s with moves := rest, responses := s.responses ++ [r] } ∧ r.data = 0)

/-- R47: every step keeps it that no response with an error status carries data. -/
def Obligations.EveryStepKeepsErrorsWithoutData : Prop :=
  ∀ s t : State, s.ErrorsCarryNoData → step s = .next t → t.ErrorsCarryNoData

/-! ### Steps and runs (`70_reset_and_hazards.md`) -/

/-- R139: from reset, as long as the host has presented no `SETKEY` of a legal key, the engine is unkeyed and no command
has succeeded. -/
def Obligations.NothingSucceedsBeforeKeying : Prop :=
  ∀ (ms : List HostMove) (stops : Bool) (k : Nat) (t : State), (∀ m ∈ ms, ¬ m.KeysEngine) →
    runSteps k { State.reset with moves := ms, stopsAtError := stops } = .next t →
    t.engine = .unkeyed ∧ ∀ r ∈ t.responses, r.status ≠ .ok

/-- R146: a step is total, and takes exactly the host's next move. -/
def Obligations.EveryStepTakesOneMove : Prop :=
  ∀ (s : State) (m : HostMove) (rest : List HostMove), s.moves = m :: rest →
    ∃ t, step s = .next t ∧ t.moves = rest ∧ t.stopsAtError = s.stopsAtError

/-- R146, R45: where the host's next word decodes, a step runs that instruction, in the state without that move; a
command presented at the abstract level (R40) runs as itself. The third clause is no rule of the spec but the model's
choice (log entry 7): a word `w` of `nbits` bits of the opcode table is the command word with those bits and zeros above
them, bits above bit 15 dropped; `withFetchWord` puts it before the host's moves; and the next step runs it. -/
def Obligations.StepRunsTheDecodedInstruction : Prop :=
  (∀ (s : State) (w : CommandWord) (rest : List HostMove) (i : Instr), s.moves = .word w :: rest →
    decode w = .legal i → step s = exec i { s with moves := rest }) ∧
  (∀ (s : State) (rest : List HostMove) (i : Instr), s.moves = .command i :: rest →
    step s = exec i { s with moves := rest }) ∧
  ∀ (s : State) (nbits w : Nat) (i : Instr), decodeTableWord nbits w = some i →
    step (s.withFetchWord nbits w) = exec i s

/-- R136, R147: when the host has no more moves the engine keeps its state. That this is a step that changes nothing,
and not the end of the machine, is the model's choice (log entry 5). -/
def Obligations.IdleStepKeepsTheState : Prop :=
  ∀ s : State, s.moves = [] → step s = .next s

/-! ### The assembler (`30_encoding.md` R49 to R52) -/

/-- R50: whatever line the assembler accepts is a command the word interface can carry. -/
def Obligations.AssembledLinesAreWellFormed : Prop :=
  ∀ (line : List Char) (i : Instr), assembleLine line = .command i → i.WellFormed = true
end

