-- ==== Sys2Proof/Laws/Bits.lean ====
section
/-!
SUPPORT. What each bit-vector primitive holds at an index, so that no proof unfolds `build`.
-/

namespace Sys2Proof.Machine

theorem getMsbD_build {n : Nat} (f : Fin n → Bool) (i : Nat) :
    (build n f).getMsbD i = if h : i < n then f ⟨i, h⟩ else false := by
  induction n generalizing i with
  | zero => simp [build]
  | succ n ih =>
    rw [build, BitVec.getMsbD_concat, ih]
    rcases Nat.lt_trichotomy i n with h | h | h
    · have h1 : i < n + 1 := by omega
      simp only [h, h1, if_true, dif_pos]
      rfl
    · subst h
      simp [Fin.last]
    · have h1 : ¬ i < n := by omega
      have h2 : ¬ i < n + 1 := by omega
      have h3 : i ≠ n := by omega
      simp [h1, h2, h3]

theorem getMsbD_build_lt {n : Nat} (f : Fin n → Bool) {i : Nat} (h : i < n) :
    (build n f).getMsbD i = f ⟨i, h⟩ := by
  rw [getMsbD_build, dif_pos h]

/-- A vector is determined by its bits at the indices 0 to n - 1 (R55). -/
theorem eq_build_iff {n : Nat} (v : BitVec n) (f : Fin n → Bool) :
    v = build n f ↔ ∀ i : Fin n, v.getMsbD i = f i := by
  constructor
  · rintro rfl i
    exact getMsbD_build_lt f i.isLt
  · intro h
    refine BitVec.eq_of_getMsbD_eq fun i hi => ?_
    rw [getMsbD_build_lt f hi]
    exact h ⟨i, hi⟩

theorem getMsbD_slice {n : Nat} (v : BitVec n) (i j k : Nat) :
    (slice v i j).getMsbD k = (decide (k < j - i) && v.getMsbD (i + k)) := by
  rw [slice, getMsbD_build]
  split <;> simp_all

theorem getMsbD_perm {m n : Nat} (T : Vector Nat m) (v : BitVec n) {i : Nat} (h : i < m) :
    (perm T v).getMsbD i = v.getMsbD (T[i] - 1) := getMsbD_build_lt _ h

theorem getMsbD_unperm {n : Nat} (T : Vector Nat n) (v : BitVec n) {j : Nat} (h : j < n) :
    (unperm T v).getMsbD j = v.getMsbD (T.toList.idxOf (j + 1)) := getMsbD_build_lt _ h

theorem getMsbD_rotl1 {n : Nat} (v : BitVec n) {i : Nat} (h : i < n) :
    (rotl1 v).getMsbD i = v.getMsbD ((i + 1) % n) := getMsbD_build_lt _ h

theorem getMsbD_xor_vec {n : Nat} (v w : BitVec n) (i : Nat) :
    (xor v w).getMsbD i = (v.getMsbD i ^^ w.getMsbD i) := BitVec.getMsbD_xor

theorem selector_val (first second : Bool) :
    (selector first second).val = 2 * first.toNat + second.toNat := by
  cases first <;> cases second <;> rfl

theorem sbox_lt (S : Vector (Vector (Fin 4) 4) 4) (g : Half) : sbox S g < 4 := Fin.isLt _

theorem intOf_lt {n : Nat} (v : BitVec n) : intOf v < 2 ^ n := v.isLt

end Sys2Proof.Machine
end

