-- ==== Sys2Proof/Laws/State.lean ====
section
/-!
SUPPORT. One lemma per field of State per update.
-/

namespace Sys2Proof.Machine

variable (s : State) (r : Engine × Response) (q : Engine × List Response) (ms : List HostMove) (w : CommandWord)

@[simp] theorem deliver_engine : (s.deliver r).engine = r.1 := rfl
@[simp] theorem deliver_moves : (s.deliver r).moves = s.moves := rfl
@[simp] theorem deliver_responses : (s.deliver r).responses = s.responses ++ [r.2] := rfl
@[simp] theorem deliver_results : (s.deliver r).results = s.results := rfl
@[simp] theorem deliver_stopsAtError : (s.deliver r).stopsAtError = s.stopsAtError := rfl

@[simp] theorem deliverSequence_engine : (s.deliverSequence q).engine = q.1 := rfl
@[simp] theorem deliverSequence_moves : (s.deliverSequence q).moves = s.moves := rfl
@[simp] theorem deliverSequence_responses : (s.deliverSequence q).responses = s.responses ++ q.2 := rfl
@[simp] theorem deliverSequence_results : (s.deliverSequence q).results = s.results ++ [seqResult q.2] := rfl
@[simp] theorem deliverSequence_stopsAtError : (s.deliverSequence q).stopsAtError = s.stopsAtError := rfl

@[simp] theorem withMoves_engine : (s.withMoves ms).engine = s.engine := rfl
@[simp] theorem withMoves_moves : (s.withMoves ms).moves = ms := rfl
@[simp] theorem withMoves_responses : (s.withMoves ms).responses = s.responses := rfl
@[simp] theorem withMoves_results : (s.withMoves ms).results = s.results := rfl
@[simp] theorem withMoves_stopsAtError : (s.withMoves ms).stopsAtError = s.stopsAtError := rfl
@[simp] theorem withMoves_withMoves (ms' : List HostMove) : (s.withMoves ms).withMoves ms' = s.withMoves ms' := rfl
@[simp] theorem withMoves_self : s.withMoves s.moves = s := rfl

@[simp] theorem resetEngine_engine : s.resetEngine.engine = .unkeyed := rfl
@[simp] theorem resetEngine_moves : s.resetEngine.moves = s.moves := rfl
@[simp] theorem resetEngine_responses : s.resetEngine.responses = s.responses := rfl
@[simp] theorem resetEngine_results : s.resetEngine.results = s.results := rfl
@[simp] theorem resetEngine_stopsAtError : s.resetEngine.stopsAtError = s.stopsAtError := rfl

@[simp] theorem present_engine : (s.present w).engine = s.engine := rfl
@[simp] theorem present_moves : (s.present w).moves = .word w :: s.moves := rfl
@[simp] theorem present_responses : (s.present w).responses = s.responses := rfl
@[simp] theorem present_results : (s.present w).results = s.results := rfl
@[simp] theorem present_stopsAtError : (s.present w).stopsAtError = s.stopsAtError := rfl

@[simp] theorem reset_engine : State.reset.engine = .unkeyed := rfl
@[simp] theorem reset_moves : State.reset.moves = [] := rfl
@[simp] theorem reset_responses : State.reset.responses = [] := rfl
@[simp] theorem reset_results : State.reset.results = [] := rfl
@[simp] theorem reset_stopsAtError : State.reset.stopsAtError = false := rfl

end Sys2Proof.Machine
end

