-- ==== Sys2Proof/Laws/Ops.lean ====
section
/-!
SUPPORT. What each shared operation and each meaning can do, said once: proofs cite these and do not unfold them.
-/

namespace Sys2Proof.Machine

@[simp] theorem respond_engine (e : Engine) (d : Nat) : (respond e d).1 = e := rfl
@[simp] theorem respond_status (e : Engine) (d : Nat) : (respond e d).2.status = .ok := rfl
@[simp] theorem respond_data (e : Engine) (d : Nat) : (respond e d).2.data = bitsOf 8 d := rfl
@[simp] theorem raise_engine (x : Status) (e : Engine) : (raise x e).1 = e := rfl
@[simp] theorem raise_status (x : Status) (e : Engine) : (raise x e).2.status = x := rfl
@[simp] theorem raise_data (x : Status) (e : Engine) : (raise x e).2.data = 0 := rfl

theorem setkeyOp_of_inRange (c : Tables) {a : Int} (h : KeyInRange a) (e : Engine) :
    setkeyOp c a e =
      respond (.keyed (bitsOf 10 a.toNat) (keySchedule c a.toNat).1 (keySchedule c a.toNat).2) 0 := by
  rw [setkeyOp, if_pos h]

theorem setkeyOp_of_not_inRange (c : Tables) {a : Int} (h : ¬ KeyInRange a) (e : Engine) :
    setkeyOp c a e = raise .invalidKey e := by
  rw [setkeyOp, if_neg h]

@[simp] theorem dataOp_unkeyed (f : Nat → Block → Block → Nat) (a : Int) :
    dataOp f a .unkeyed = raise .noKey .unkeyed := rfl

theorem dataOp_keyed_of_inRange (f : Nat → Block → Block → Nat) {a : Int} (h : ByteInRange a) (key : KeyBits)
    (k1 k2 : Block) : dataOp f a (.keyed key k1 k2) = respond (.keyed key k1 k2) (f a.toNat k1 k2) := by
  simp only [dataOp]
  exact if_pos h

theorem dataOp_keyed_of_not_inRange (f : Nat → Block → Block → Nat) {a : Int} (h : ¬ ByteInRange a) (key : KeyBits)
    (k1 k2 : Block) : dataOp f a (.keyed key k1 k2) = raise .invalidByteValue (.keyed key k1 k2) := by
  simp only [dataOp]
  exact if_neg h

/-- `ENC` and `DEC` write no state element (R97, R105). -/
@[simp] theorem dataOp_engine (f : Nat → Block → Block → Nat) (a : Int) (e : Engine) : (dataOp f a e).1 = e := by
  cases e with
  | unkeyed => rfl
  | keyed key k1 k2 =>
    by_cases h : ByteInRange a
    · rw [dataOp_keyed_of_inRange f h, respond_engine]
    · rw [dataOp_keyed_of_not_inRange f h, raise_engine]

@[simp] theorem engineStep_setkey (c : Tables) (a : Int) (e : Engine) :
    engineStep c (.setkey, a) e = setkeyOp c a e := rfl
@[simp] theorem engineStep_enc (c : Tables) (a : Int) (e : Engine) :
    engineStep c (.enc, a) e = dataOp (encryptBlock c) a e := rfl
@[simp] theorem engineStep_dec (c : Tables) (a : Int) (e : Engine) :
    engineStep c (.dec, a) e = dataOp (decryptBlock c) a e := rfl

@[simp] theorem runCommands_nil (c : Tables) (stop : Bool) (e : Engine) : runCommands c stop [] e = (e, []) := rfl

/-- A command that succeeds: the run goes on from the state it leaves. -/
theorem runCommands_cons_ok (c : Tables) (stop : Bool) (p : Op × Int) (ps : List (Op × Int)) (e : Engine)
    (h : (engineStep c p e).2.status = .ok) :
    runCommands c stop (p :: ps) e =
      ((runCommands c stop ps (engineStep c p e).1).1,
        (engineStep c p e).2 :: (runCommands c stop ps (engineStep c p e).1).2) := by
  simp [runCommands, h]

/-- A command that fails, under a host that stops: nothing more is presented. -/
theorem runCommands_cons_stop (c : Tables) (p : Op × Int) (ps : List (Op × Int)) (e : Engine)
    (h : (engineStep c p e).2.status ≠ .ok) :
    runCommands c true (p :: ps) e = ((engineStep c p e).1, [(engineStep c p e).2]) := by
  simp [runCommands, h]

/-- A host that does not stop presents every command. -/
theorem runCommands_cons_goOn (c : Tables) (p : Op × Int) (ps : List (Op × Int)) (e : Engine) :
    runCommands c false (p :: ps) e =
      ((runCommands c false ps (engineStep c p e).1).1,
        (engineStep c p e).2 :: (runCommands c false ps (engineStep c p e).1).2) := by
  simp [runCommands]

/-- What an instruction can do: one command's end, or a sequence's. -/
theorem exec_cases {i : Instr} {s t : State} (h : exec i s = .next t) :
    (∃ p, i.commands = [p] ∧ t = s.deliver (engineStep cfg p s.engine)) ∨
    (∃ vs, i = .encseq vs ∧
      t = s.deliverSequence (runCommands cfg s.stopsAtError i.commands s.engine)) ∨
    (∃ vs, i = .decseq vs ∧
      t = s.deliverSequence (runCommands cfg s.stopsAtError i.commands s.engine)) := by
  cases i <;> cases h
  case setkey a => exact .inl ⟨(.setkey, a), rfl, rfl⟩
  case enc a => exact .inl ⟨(.enc, a), rfl, rfl⟩
  case dec a => exact .inl ⟨(.dec, a), rfl, rfl⟩
  case construct k => exact .inl ⟨(.setkey, k), rfl, rfl⟩
  case encseq vs => exact .inr (.inl ⟨vs, rfl, rfl⟩)
  case decseq vs => exact .inr (.inr ⟨vs, rfl, rfl⟩)

/-- What one step can do: idle; run an instruction; refuse a word; reset. -/
theorem step_cases {s t : State} (h : step s = .next t) :
    (s.moves = [] ∧ t = s) ∨
    (∃ i rest, (s.moves = .command i :: rest ∨ ∃ w, s.moves = .word w :: rest ∧ decode w = .legal i) ∧
      exec i (s.withMoves rest) = .next t) ∨
    (∃ w rest, s.moves = .word w :: rest ∧ decode w = .illegalCommand ∧
      t = (s.withMoves rest).deliver (illegalOp s.engine)) ∨
    (∃ rest, s.moves = .reset :: rest ∧ t = (s.withMoves rest).resetEngine) := by
  rw [step, takeMove] at h
  split at h
  next hm => cases h; exact .inl ⟨hm, rfl⟩
  next m rest hm =>
    cases m with
    | word w =>
      rw [perform] at h
      split at h
      next i hd => exact .inr (.inl ⟨i, rest, .inr ⟨w, hm, hd⟩, h⟩)
      next hd => cases h; exact .inr (.inr (.inl ⟨w, rest, hm, hd, rfl⟩))
    | command i => exact .inr (.inl ⟨i, rest, .inl hm, h⟩)
    | reset => cases h; exact .inr (.inr (.inr ⟨rest, hm, rfl⟩))

@[simp] theorem runSteps_zero (s : State) : runSteps 0 s = .next s := rfl

theorem runSteps_succ_of_step {k : Nat} {s t : State} (h : step s = .next t) :
    runSteps (k + 1) s = runSteps k t := by
  have h' : Sys2Proof.core.step s = .next t := h
  simp only [runSteps, Host.Core.run, h']
  rfl

/-- A property that every step keeps holds after any number of steps. -/
theorem runSteps_keeps (P : State → Prop) (keeps : ∀ s t, P s → step s = .next t → P t) {k : Nat} {s t : State}
    (hs : P s) (h : runSteps k s = .next t) : P t := by
  induction k generalizing s with
  | zero => cases h; exact hs
  | succ k ih =>
    cases hstep : step s with
    | next u =>
      rw [runSteps_succ_of_step hstep] at h
      exact ih (keeps s u hs hstep) h
    | fault r => cases r
    | refused r =>
      have h' : Sys2Proof.core.step s = .refused r := hstep
      simp [runSteps, Host.Core.run, h'] at h

end Sys2Proof.Machine
end

