-- ==== Sys2Proof/Laws/PerInstr.lean ====
section
/-!
SUPPORT. Statements about every instruction as syntax, one lemma per constructor.
-/

namespace Sys2Proof.Laws.Expansion

/-- The expansion of a well-formed instruction (R52) consists of commands that the word interface can carry (R43), and
has one command for each of the instruction's words. -/
def Statement (i : Instr) : Prop :=
  i.WellFormed = true → (encode i).length = i.commands.length ∧ ∀ p ∈ i.commands, (Instr.ofCommand p).WellFormed = true

theorem setkey (a : Int) : Statement (.setkey a) := fun h =>
  ⟨rfl, fun p hp => by cases List.mem_singleton.mp hp; exact h⟩

theorem enc (a : Int) : Statement (.enc a) := fun h =>
  ⟨rfl, fun p hp => by cases List.mem_singleton.mp hp; exact h⟩

theorem dec (a : Int) : Statement (.dec a) := fun h =>
  ⟨rfl, fun p hp => by cases List.mem_singleton.mp hp; exact h⟩

theorem construct (k : Int) : Statement (.construct k) := fun h =>
  ⟨rfl, fun p hp => by cases List.mem_singleton.mp hp; exact h⟩

theorem encseq (vs : List Int) : Statement (.encseq vs) := fun h =>
  ⟨List.length_map .., fun p hp => by
    obtain ⟨v, hv, rfl⟩ := List.mem_map.mp hp
    exact List.all_eq_true.mp h v hv⟩

theorem decseq (vs : List Int) : Statement (.decseq vs) := fun h =>
  ⟨List.length_map .., fun p hp => by
    obtain ⟨v, hv, rfl⟩ := List.mem_map.mp hp
    exact List.all_eq_true.mp h v hv⟩

end Sys2Proof.Laws.Expansion
end

