-- ==== Sys2Proof/Tests/Slice0.lean ====
section
/-!
SUPPORT. Small tests, and a witness for the hypotheses of every statement. Expected values are those of
`95_test_vectors.md`, or of the rule named, never the model's own answer.
-/

namespace Sys2Proof.Tests

open Sys2Proof Sys2Proof.Machine

/-- A state with this engine and these moves, and nothing handed to the host yet. -/
def demo (e : Engine) (ms : List HostMove) : State :=
  { engine := e, moves := ms, responses := [], results := [], stopsAtError := false }

/-- The engine keyed with 737 (T-KEY-19). -/
def keyed737 : Engine := .keyed 0b1011100001#10 0b10010110#8 0b01010111#8

/-- The next state, if there is one. -/
def nextOf : Host.Outcome State Fault Refusal → Option State
  | .next s => some s
  | .fault _ => none
  | .refused _ => none

/-- The last response word the host was given. -/
def lastWord (o : Host.Outcome State Fault Refusal) : Option ResponseWord :=
  match nextOf o with
  | some s => s.responses.getLast?.map Response.word
  | none => none

/-! ### Well-formedness: an ill-formed term for each check, at the edge of the field (R43, R50) -/

theorem test_setkey_above_field : (Instr.setkey 2048).WellFormed = false := by decide
theorem test_enc_below_field : (Instr.enc (-2049)).WellFormed = false := by decide
theorem test_dec_above_field : (Instr.dec 2048).WellFormed = false := by decide
theorem test_construct_below_field : (Instr.construct (-2049)).WellFormed = false := by decide
theorem test_encseq_one_bad_unit : (Instr.encseq [65, 2048, 66]).WellFormed = false := by decide
theorem test_decseq_one_bad_unit : (Instr.decseq [0, -2049]).WellFormed = false := by decide
theorem test_illegal_key_is_well_formed : (Instr.setkey 1024).WellFormed = true := by decide

/-! ### Decoding: words written out bit by bit from R41, R42, R54 -/

theorem test_decode_setkey : decode 0b0001001011100001#16 = .legal (.setkey 737) := by decide
theorem test_decode_enc : decode 0b0010000001000001#16 = .legal (.enc 65) := by decide
theorem test_decode_dec : decode 0b0011000001000110#16 = .legal (.dec 70) := by decide
theorem test_decode_lowest_argument : decode 0b0001100000000000#16 = .legal (.setkey (-2048)) := by decide
theorem test_decode_highest_argument : decode 0b0010011111111111#16 = .legal (.enc 2047) := by decide
theorem test_decode_minus_one : decode 0b0011111111111111#16 = .legal (.dec (-1)) := by decide
theorem test_decode_opc_zero : decode 0b0000000001000001#16 = .illegalCommand := by decide
theorem test_decode_opc_four : decode 0b0100000001000001#16 = .illegalCommand := by decide
theorem test_encode_construct : (encode (.construct 737)).map decode = [.legal (.setkey 737)] := by decide
theorem test_encode_encseq :
    encode (.encseq [65, 66, 65]) = [0x2041#16, 0x2042#16, 0x2041#16] := by decide
theorem test_encode_decseq :
    encode (.decseq [70, 248, 70]) = [0x3046#16, 0x30F8#16, 0x3046#16] := by decide
theorem test_table_word : decodeTableWord 16 0x2000 = some (.enc 0) := by decide

/-! ### Primitives (T-PRIM) -/

theorem test_perm_ip_first_bit : perm classicTables.ip 0b10000000#8 = 0b00010000#8 := by decide
theorem test_perm_p8_last_bit : perm classicTables.p8 0b0000000001#10 = 0b00000010#8 := by decide
theorem test_unperm_ip_last_bit : unperm classicTables.ip 0b00000001#8 = 0b00000010#8 := by decide
theorem test_rotl1_wraps : rotl1 0b10000#5 = 0b00001#5 := by decide
theorem test_slice_is_half_open : slice 0b1100111000#10 5 10 = 0b11000#5 := by decide

theorem test_bitsOf_737 : bitsOf 10 737 = 0b1011100001#10 := by decide
theorem test_xor : xor 0b00101000#8 0b10010110#8 = 0b10111110#8 := by decide
theorem test_append : (0b10011#5 ++ 0b10001#5 : BitVec 10) = 0b1001110001#10 := by decide

/-! ### Functions (T-KEY, T-FK, T-ENC, T-DEC) and what a wrong model would give (X1 to X10) -/

/-- T-KEY-18; the textbook's K2 would be 01000011 (X1). -/
theorem test_key_schedule_642 : keySchedule cfg 642 = (0b10100100#8, 0b10010010#8) := by decide +kernel
/-- T-FK-4. -/
theorem test_functionK : functionK cfg 0b1111#4 0b10010010#8 = 0b1100#4 := by decide +kernel
/-- T-ENC-11; the textbook's row and column selection would give 241 (X2). -/
theorem test_encrypt_642_189 : encryptBlock cfg 189 0b10100100#8 0b10010010#8 = 59 := by decide +kernel
/-- T-DEC-1; the order of SDES-RS §4.4 step 5 would give 20 (X3), K1 before K2 would give 93 (X9). -/
theorem test_decrypt_737_70 : decryptBlock cfg 70 0b10010110#8 0b01010111#8 = 65 := by decide +kernel

/-! ### Instructions: one step each -/

/-- T-ERR-6. -/
theorem test_setkey_1023 :
    nextOf (step (State.reset.withFetchWord 16 0x13FF)) =
      some { State.reset with engine := .keyed 1023 255 255, responses := [⟨.ok, 0⟩] } := by decide +kernel
/-- T-ERR-12. -/
theorem test_setkey_1024_keeps_the_key :
    nextOf (exec (.setkey 1024) (demo keyed737 [])) =
      some { demo keyed737 [] with responses := [⟨.invalidKey, 0⟩] } := by decide +kernel
/-- T-ENC-2; without the swap the result would be 122 (X8). -/
theorem test_enc_66 : lastWord (exec (.enc 66) (demo keyed737 [])) = some 0x0F8#11 := by decide +kernel
/-- T-ERR-9: `NoKey` before the range check. -/
theorem test_enc_256_unkeyed : lastWord (exec (.enc 256) State.reset) = some 0x300#11 := by decide +kernel
/-- T-ERR-20. -/
theorem test_dec_255 : lastWord (exec (.dec 255) (demo keyed737 [])) = some 0x0C6#11 := by decide +kernel
/-- T-ERR-15. -/
theorem test_dec_minus_one : lastWord (exec (.dec (-1)) (demo keyed737 [])) = some 0x200#11 := by decide +kernel
/-- P5, line 1. -/
theorem test_construct_642 :
    (nextOf (exec (.construct 642) State.reset)).map State.engine =
      some (.keyed 642 0b10100100#8 0b10010010#8) := by decide +kernel
/-- P4, line 4. -/
theorem test_construct_1024 : nextOf (exec (.construct 1024) State.reset) =
    some { State.reset with responses := [⟨.invalidKey, 0⟩] } := by decide +kernel
/-- T-SEQ-5. -/
theorem test_encseq : (nextOf (exec (.encseq [65, 66, 65]) (demo keyed737 []))).map State.results =
    some [.units [70, 248, 70]] := by decide +kernel
/-- T-SEQ-11. -/
theorem test_encseq_bad_unit : (nextOf (exec (.encseq [65, 256, 66]) (demo keyed737 []))).map State.results =
    some [.failed .invalidByteValue] := by decide +kernel
/-- T-SEQ-10. -/
theorem test_decseq : (nextOf (exec (.decseq [135, 47]) (demo keyed737 []))).map State.results =
    some [.units [0, 255]] := by decide +kernel
/-- T-SEQ-13, for `DECSEQ`. -/
theorem test_decseq_empty_unkeyed : nextOf (exec (.decseq []) State.reset) =
    some { State.reset with results := [.units []] } := by decide +kernel
/-- T-ERR-26: an illegal word. -/
theorem test_illegal_word : nextOf (step ((demo keyed737 []).withFetchWord 16 0xF2E1)) =
    some { demo keyed737 [] with responses := [⟨.illegalCommand, 0⟩] } := by decide +kernel
/-- R137: reset gives no response. -/
theorem test_reset_move : nextOf (step (demo keyed737 [.reset])) = some (demo .unkeyed []) := by decide +kernel
/-- R108: a host that stops at the first error presents no further unit. -/
theorem test_host_stops :
    ((nextOf (exec (.encseq [256, 65]) { demo keyed737 [] with stopsAtError := true })).map State.responses) =
      some [⟨.invalidByteValue, 0⟩] := by decide +kernel

/-! ### The assembler (R49 to R52) -/

theorem test_assemble_comment :
    assembleLine ['E', 'N', 'C', ' ', quoteChar, 'A', quoteChar, ' ', ';', ' ', 'x'] = .command (.enc 65) := by
  decide +kernel
theorem test_assemble_sequence :
    assembleLine ['D', 'E', 'C', 'S', 'E', 'Q', ' ', '7', '0', ',', ' ', '-', '1'] = .command (.decseq [70, -1]) := by
  decide +kernel
theorem test_literal_forms : literal ['0', 'b', '1', '0', '1'] = some 5 ∧ literal ['0', 'x', '2', 'E', '1'] = some 737 ∧
    literal ['2', '0', '4', '7'] = some 2047 ∧ literal ['2', '0', '4', '8'] = none := by decide +kernel
/-- P2, line 2: a listing line. -/
theorem test_listing_line :
    (ListingLine.check ⟨0x2041#16, ['E', 'N', 'C', ' ', '6', '5'], 0x046#11⟩ (demo keyed737 [])).isSome = true := by
  decide +kernel
/-- P4, line 11: the listing line of an illegal word. -/
theorem test_listing_illegal_word :
    ListingLine.check ⟨0x52E1#16, illegalWordText, 0x400#11⟩ (demo keyed737 []) =
      some { demo keyed737 [] with responses := [⟨.illegalCommand, 0⟩] } := by decide +kernel
/-- No legal word has that text. -/
theorem test_listing_legal_word :
    ListingLine.check ⟨0x2041#16, illegalWordText, 0x046#11⟩ (demo keyed737 []) = none := by decide +kernel

/-! ### Witnesses: a concrete state and operands for the hypotheses of each statement, each clause apart -/

theorem witness_ResetLeavesTheEngineUnkeyed : (demo keyed737 [.reset]).moves = .reset :: [] := rfl

theorem demo737_inv (ms : List HostMove) : (demo keyed737 ms).Inv := by
  show (_, _) = keySchedule cfg _ ∧ _
  decide +kernel

theorem witness_EveryStepKeepsSubkeysMatchingKey :
    (demo keyed737 [.word 0x13FF#16]).Inv ∧
      ∃ t, step (demo keyed737 [.word 0x13FF#16]) = .next t ∧ t.engine ≠ keyed737 :=
  ⟨demo737_inv _, _, rfl, by decide +kernel⟩

theorem witness_ReachableKeyedStatesHoldTheirSchedule :
    ∃ t key k1 k2, runSteps 1 { State.reset with moves := [.word 0x12E1#16], stopsAtError := false } = .next t ∧
      t.engine = .keyed key k1 k2 := ⟨_, _, _, _, rfl, rfl⟩

theorem witness_OnlySetkeyAndResetChangeTheEngine_setkey :
    ∃ t, step (demo .unkeyed [.word 0x1000#16]) = .next t ∧ t.engine ≠ .unkeyed := ⟨_, rfl, by decide +kernel⟩

theorem witness_OnlySetkeyAndResetChangeTheEngine_reset :
    ∃ t, step (demo keyed737 [.reset]) = .next t ∧ t.engine ≠ keyed737 := ⟨_, rfl, by decide +kernel⟩

theorem witness_OnlyResetClearsKeyed : ∃ t, step (demo keyed737 [.reset]) = .next t ∧
    (demo keyed737 [.reset]).engine.isKeyed = true ∧ t.engine.isKeyed = false := ⟨_, rfl, rfl, rfl⟩

theorem witness_FrameOfEveryInstruction :
    (∃ t, exec (.setkey 0) (demo .unkeyed []) = .next t) ∧ (∃ t, exec (.construct 0) (demo .unkeyed []) = .next t) ∧
    (∃ t, exec (.enc 0) (demo keyed737 []) = .next t) ∧ (∃ t, exec (.dec 0) (demo keyed737 []) = .next t) ∧
    (∃ t, exec (.encseq [0]) (demo keyed737 []) = .next t) ∧ (∃ t, exec (.decseq [0]) (demo keyed737 []) = .next t) ∧
    (∀ vs, Instr.setkey 0 ≠ .encseq vs ∧ Instr.setkey 0 ≠ .decseq vs) ∧
    ∀ a, Instr.encseq [0] ≠ .setkey a ∧ Instr.encseq [0] ≠ .construct a := by
  refine ⟨⟨_, rfl⟩, ⟨_, rfl⟩, ⟨_, rfl⟩, ⟨_, rfl⟩, ⟨_, rfl⟩, ⟨_, rfl⟩, fun vs => ?_, fun a => ?_⟩ <;>
    constructor <;> intro h <;> cases h

theorem witness_InterleavedInstancesRunAsIfAlone :
    [demo keyed737 [.word 0x2041#16], State.reset][1]? = some State.reset := rfl

theorem witness_DecodeOfEncodeIsTheCommand : ((-2048 : Int) ≤ -2048 ∧ (-2048 : Int) ≤ 2047) ∧
    ((-2048 : Int) ≤ 2047 ∧ (2047 : Int) ≤ 2047) := by decide

theorem witness_WordsDecodeToTheExpansion :
    (Instr.encseq [-2048, 2047]).WellFormed = true ∧ (Instr.decseq []).WellFormed = true ∧
      (Instr.setkey 2047).WellFormed = true ∧ (Instr.construct (-2048)).WellFormed = true := by decide

theorem witness_LegalWordIsTheWordOfItsInstruction : decode 0x1800#16 = .legal (.setkey (-2048)) := by decide

theorem witness_ResponseWordAndItsFields : (demo .unkeyed [.word 0xFFFF#16]).moves = .word 0xFFFF#16 :: [] ∧
    decode 0x1000#16 = .legal (.setkey 0) ∧ (⟨.noKey, 0⟩ : Response).status ≠ .ok := by decide

theorem witness_RunningWordsIsRunningCommands :
    (∀ p ∈ [(Op.setkey, (2047 : Int)), (Op.enc, -2048)], ArgFits p.2) ∧
      (demo .unkeyed [.word 0x17FF#16, .word 0x2800#16, .reset]).moves =
        ([(Op.setkey, (2047 : Int)), (Op.enc, -2048)].map fun p => HostMove.word (encodeCommand p.1 p.2)) ++
          [.reset] := by decide

theorem witness_SliceAndConcatenationByIndex : (5 ≤ 10 ∧ 10 ≤ 10 ∧ 4 < 10 - 5) ∧ (0 ≤ 0 ∧ 0 ≤ 1 ∧ 0 < 1 - 0) ∧
    17 < 10 + 8 ∧ (10 - 0 + (10 - 10) = 10) := by decide

theorem witness_BitsAndIntegersMostSignificantFirst : 1023 < 2 ^ 10 ∧ 9 < 10 ∧ 0 < 2 ^ 0 := by decide

theorem witness_PermGathersByPosition : PositionsIn 4 classicTables.ep ∧ PositionsIn 10 classicTables.p8 := by decide

theorem witness_UnpermScattersAndInvertsPerm : IsPermutation classicTables.ip ∧ IsPermutation classicTables.p10 := by
  decide

theorem witness_RotationByOnePosition : 4 < 5 := by decide

theorem witness_ExclusiveOrByIndex : 7 < 8 := by decide

theorem classicTables_wf : classicTables.WF := by constructor <;> decide

theorem witness_FinalPermutationIsTheInverseOfTheInitialOne : ∃ c : Tables, c.WF := ⟨_, classicTables_wf⟩

theorem witness_SetkeyFollowsItsRule : ((0 : Int) ≤ 0 ∧ (0 : Int) ≤ 1023) ∧ ((0 : Int) ≤ 1023 ∧ (1023 : Int) ≤ 1023) ∧
    ((-1 : Int) < 0 ∨ (-1 : Int) > 1023) ∧ ((1024 : Int) < 0 ∨ (1024 : Int) > 1023) := by decide

theorem witness_ConstructFollowsTheSetkeyRule : ((0 : Int) ≤ 1023 ∧ (1023 : Int) ≤ 1023) ∧
    ((1024 : Int) < 0 ∨ (1024 : Int) > 1023) := by decide

theorem witness_KeyScheduleBitByBit : ∃ c : Tables, c.WF ∧ 1023 ≤ 1023 := ⟨_, classicTables_wf, Nat.le_refl _⟩

theorem witness_KeyBitOfWeight256ReachesNoSubkey : 0 ≤ 1023 ∧ 1023 ≤ 1023 := by decide

theorem witness_SboxRowFromTheFirstTwoBits :
    (2 : Fin 4).val = 2 * ((0b1011#4).getMsbD 0).toNat + ((0b1011#4).getMsbD 1).toNat ∧
    (3 : Fin 4).val = 2 * ((0b1011#4).getMsbD 2).toNat + ((0b1011#4).getMsbD 3).toNat := by decide

/-- The groups of T-FK-1: 1011 and 1110. -/
theorem witness_RoundFunctionBitByBit : classicTables.WF ∧
    (∀ i : Fin 8, (0b10111110#8).getMsbD i =
      ((0b0100#4).getMsbD (classicTables.ep[i] - 1) != (0b10010110#8).getMsbD i)) ∧
    (2 : Fin 4).val = 2 * ((0b10111110#8).getMsbD 0).toNat + ((0b10111110#8).getMsbD 1).toNat ∧
    (3 : Fin 4).val = 2 * ((0b10111110#8).getMsbD 2).toNat + ((0b10111110#8).getMsbD 3).toNat ∧
    (3 : Fin 4).val = 2 * ((0b10111110#8).getMsbD 4).toNat + ((0b10111110#8).getMsbD 5).toNat ∧
    (2 : Fin 4).val = 2 * ((0b10111110#8).getMsbD 6).toNat + ((0b10111110#8).getMsbD 7).toNat :=
  ⟨classicTables_wf, by decide⟩

theorem witness_EncFollowsItsRule : (demo keyed737 []).engine = keyed737 ∧ State.reset.engine = .unkeyed ∧
    ((0 : Int) ≤ 0 ∧ (0 : Int) ≤ 255) ∧ ((0 : Int) ≤ 255 ∧ (255 : Int) ≤ 255) ∧
    ((-1 : Int) < 0 ∨ (-1 : Int) > 255) ∧ ((256 : Int) < 0 ∨ (256 : Int) > 255) := by decide

theorem witness_DecFollowsItsRule : (demo keyed737 []).engine = keyed737 ∧ State.reset.engine = .unkeyed ∧
    ((0 : Int) ≤ 0 ∧ (0 : Int) ≤ 255) ∧ ((0 : Int) ≤ 255 ∧ (255 : Int) ≤ 255) ∧
    ((-1 : Int) < 0 ∨ (-1 : Int) > 255) ∧ ((256 : Int) < 0 ∨ (256 : Int) > 255) := by decide

theorem witness_EncryptionIsTwoRounds : 0 ≤ 255 ∧ 255 ≤ 255 := by decide

theorem witness_DecryptionIsTwoRoundsBackwards : 0 ≤ 255 ∧ 255 ≤ 255 := by decide

theorem witness_SequenceOfLegalUnits : (demo keyed737 []).engine = keyed737 ∧
    (∀ v ∈ ([0, 255] : List Int), 0 ≤ v ∧ v ≤ 255) ∧ ∀ v ∈ ([] : List Int), 0 ≤ v ∧ v ≤ 255 := by decide

theorem witness_SequenceErrors : (demo keyed737 []).engine = keyed737 ∧ State.reset.engine = .unkeyed ∧
    (∀ v ∈ ([0, 255] : List Int), 0 ≤ v ∧ v ≤ 255) ∧ ((256 : Int) < 0 ∨ (256 : Int) > 255) ∧
    ((-1 : Int) < 0 ∨ (-1 : Int) > 255) ∧
    (Instr.encseq = Instr.encseq ∨ Instr.encseq = Instr.decseq) ∧
    (Instr.decseq = Instr.encseq ∨ Instr.decseq = Instr.decseq) :=
  ⟨rfl, rfl, by decide, by decide, by decide, .inl rfl, .inr rfl⟩

theorem witness_DecryptionUndoesEncryption_block : ∃ c : Tables, c.WF ∧ 255 ≤ 255 :=
  ⟨_, classicTables_wf, Nat.le_refl _⟩

/-- P1, lines 1 and 2. -/
theorem witness_DecryptionUndoesEncryption_commands : cfg.WF ∧
    engineStep cfg (.setkey, 737) .unkeyed = (keyed737, ⟨.ok, 0⟩) ∧
    (engineStep cfg (.enc, 72) keyed737).2 = ⟨.ok, 88⟩ := ⟨classicTables_wf, by decide +kernel⟩

theorem witness_EncryptionUndoesDecryption : ∃ c : Tables, c.WF ∧ 255 ≤ 255 :=
  ⟨_, classicTables_wf, Nat.le_refl _⟩

/-- The words of P2, lines 5 to 7: a decryption and a failed re-key between two `ENC 65`. -/
theorem witness_EqualDataCommandsGiveEqualResponses : Op.enc ≠ .setkey ∧ ArgFits 65 ∧
    (demo keyed737 [.word 0x2041#16, .word 0x3000#16, .word 0x1400#16, .word 0x2041#16]).moves =
      .word (encodeCommand .enc 65) ::
        ([0x3000#16, 0x1400#16].map HostMove.word ++ .word (encodeCommand .enc 65) :: []) ∧
    ∀ w ∈ [0x3000#16, 0x1400#16], ∀ k, decode w = .legal (.setkey k) → ¬ KeyInRange k := by
  refine ⟨by decide, by decide, by decide, fun w hw k hk => ?_⟩
  have h1 : decode 0x3000#16 = .legal (.dec 0) := by decide
  have h2 : decode 0x1400#16 = .legal (.setkey 1024) := by decide
  simp only [List.mem_cons, List.not_mem_nil, or_false] at hw
  rcases hw with rfl | rfl
  · rw [h1] at hk; cases hk
  · rw [h2] at hk; cases hk; decide

theorem witness_BlockFunctionsAreBijections : ∃ c : Tables, c.WF := ⟨_, classicTables_wf⟩

theorem witness_BoundaryKeysAndUnits : (demo keyed737 []).engine.isKeyed = true ∧
    (Instr.enc = Instr.enc ∨ Instr.enc = Instr.dec) ∧ (Instr.dec = Instr.enc ∨ Instr.dec = Instr.dec) ∧
    ((0 : Int) = 0 ∨ (0 : Int) = 255) ∧ ((255 : Int) = 0 ∨ (255 : Int) = 255) ∧
    ((-1 : Int) = -1 ∨ (-1 : Int) = 256) ∧ ((256 : Int) = -1 ∨ (256 : Int) = 256) ∧
    ((1023 : Int) = 0 ∨ (1023 : Int) = 1023) ∧ ((1024 : Int) = -1 ∨ (1024 : Int) = 1024) :=
  ⟨rfl, .inl rfl, .inr rfl, by decide⟩

theorem witness_SequenceRoundTrip : ∃ c : Tables, c.WF ∧ ∀ v ∈ ([0, 255] : List Int), 0 ≤ v ∧ v ≤ 255 :=
  ⟨_, classicTables_wf, by decide⟩

/-- The lowest and the highest value of `opc` that are illegal, and the first above the legal ones (R44). -/
theorem witness_IllegalWordIsReported : (∀ w, (demo .unkeyed [.word w]).moves = .word w :: []) ∧
    (0x0000#16).extractLsb' 12 4 = 0 ∧ (0x4041#16).extractLsb' 12 4 = 4 ∧ (0xFFFF#16).extractLsb' 12 4 = 15 :=
  ⟨fun _ => rfl, by decide⟩

theorem witness_EachErrorExactlyWhenItsRuleSays :
    (engineStep cfg (.setkey, -1) .unkeyed).2.status ≠ .ok ∧ (engineStep cfg (.enc, 0) .unkeyed).2.status ≠ .ok ∧
      (engineStep cfg (.dec, 256) keyed737).2.status ≠ .ok := by decide

theorem witness_OrderOfErrorChecks : State.reset.engine = .unkeyed ∧ ((256 : Int) < 0 ∨ (256 : Int) > 255) ∧
    (Instr.enc = Instr.enc ∨ Instr.enc = Instr.dec) ∧ (Instr.dec = Instr.enc ∨ Instr.dec = Instr.dec) :=
  ⟨rfl, by decide, .inl rfl, .inr rfl⟩

/-- The step of T-ERR-7 and that of T-ERR-12 at the abstract level: both responses are errors. -/
theorem witness_ErrorsWriteNoState :
    (∃ t, (demo .unkeyed [.word 0x2041#16]).moves = .word 0x2041#16 :: [] ∧
      step (demo .unkeyed [.word 0x2041#16]) = .next t ∧ t.responses = [⟨.noKey, 0⟩]) ∧
    ∃ t, (demo keyed737 [.command (Instr.ofCommand (.setkey, 1024))]).moves =
        .command (Instr.ofCommand (.setkey, 1024)) :: [] ∧
      step (demo keyed737 [.command (Instr.ofCommand (.setkey, 1024))]) = .next t ∧
      t.responses = [⟨.invalidKey, 0⟩] := ⟨⟨_, rfl, rfl, rfl⟩, ⟨_, rfl, rfl, rfl⟩⟩

theorem witness_EveryStepKeepsErrorsWithoutData :
    (demo .unkeyed [.word 0x2041#16]).ErrorsCarryNoData ∧ ∃ t, step (demo .unkeyed [.word 0x2041#16]) = .next t :=
  ⟨fun _ h => (List.not_mem_nil h).elim, _, rfl⟩

theorem noKey_word_keys_not : ¬ (HostMove.word 0x1400#16).KeysEngine := by
  rintro ⟨a, ha, h | h | ⟨w, h, hd⟩⟩
  · cases h
  · cases h
  · cases h
    have h2 : decode 0x1400#16 = .legal (.setkey 1024) := by decide
    rw [h2] at hd
    cases hd
    exact absurd ha (by decide)

theorem witness_NothingSucceedsBeforeKeying : (∀ m ∈ [HostMove.word 0x1400#16], ¬ m.KeysEngine) ∧
    ∃ t, runSteps 1 { State.reset with moves := [.word 0x1400#16], stopsAtError := false } = .next t :=
  ⟨fun m hm => by cases List.mem_singleton.mp hm; exact noKey_word_keys_not, _, rfl⟩

theorem witness_EveryStepTakesOneMove : (demo .unkeyed [.reset]).moves = .reset :: [] := rfl

theorem witness_StepRunsTheDecodedInstruction :
    (demo .unkeyed [.word 0x12E1#16]).moves = .word 0x12E1#16 :: [] ∧ decode 0x12E1#16 = .legal (.setkey 737) ∧
    (demo .unkeyed [.command (.encseq [])]).moves = .command (.encseq []) :: [] ∧
    decodeTableWord 16 0x3FFF = some (.dec (-1)) := by decide

theorem witness_IdleStepKeepsTheState : State.reset.moves = [] := rfl

theorem witness_AssembledLinesAreWellFormed :
    assembleLine ['S', 'E', 'T', 'K', 'E', 'Y', ' ', '-', '2', '0', '4', '8'] = .command (.setkey (-2048)) := by
  decide +kernel

end Sys2Proof.Tests
end

section
/-!
PROOF. The obligations on the state and on reset (`10_state.md` R20, R24, R26, R27). They rest on one fact: a step
leaves the engine alone, resets it, or keys it with a legal key (`step_engine_cases`).
-/

namespace Sys2Proof.Machine

/-! ### The keyed engine -/

theorem intOf_bitsOf {n x : Nat} (h : x < 2 ^ n) : intOf (bitsOf n x) = x :=
  Nat.mod_eq_of_lt h

/-- The engine that `SETKEY a` of a legal key leaves behind (R73). -/
def keyedWith (c : Tables) (a : Int) : Engine :=
  .keyed (bitsOf 10 a.toNat) (keySchedule c a.toNat).1 (keySchedule c a.toNat).2

@[simp] theorem keyedWith_isKeyed (c : Tables) (a : Int) : (keyedWith c a).isKeyed = true := rfl

theorem setkeyOp_engine_of_inRange (c : Tables) {a : Int} (h : KeyInRange a) (e : Engine) :
    (setkeyOp c a e).1 = keyedWith c a := by
  rw [setkeyOp_of_inRange c h, respond_engine, keyedWith]

theorem setkeyOp_engine_of_not_inRange (c : Tables) {a : Int} (h : ¬ KeyInRange a) (e : Engine) :
    (setkeyOp c a e).1 = e := by
  rw [setkeyOp_of_not_inRange c h, raise_engine]

@[simp] theorem subkeysMatchKey_unkeyed (c : Tables) : Engine.unkeyed.SubkeysMatchKey c := trivial

/-- The ten bits of `KEY` lose nothing of a legal key, so the schedule of the register is that of the argument. -/
theorem keyedWith_subkeysMatchKey (c : Tables) {a : Int} (h : KeyInRange a) :
    (keyedWith c a).SubkeysMatchKey c := by
  have hlt : a.toNat < 2 ^ 10 := by omega
  have hkey : intOf (bitsOf 10 a.toNat) = a.toNat := intOf_bitsOf hlt
  rw [keyedWith, Engine.SubkeysMatchKey, hkey]
  exact ⟨rfl, by omega⟩

/-! ### What becomes of the engine -/

/-- A run of data commands writes no state element (R97, R105). -/
theorem runCommands_engine (c : Tables) (stop : Bool) (ps : List (Op × Int)) (e : Engine)
    (h : ∀ p ∈ ps, ∀ e', (engineStep c p e').1 = e') : (runCommands c stop ps e).1 = e := by
  induction ps with
  | nil => rfl
  | cons p ps ih =>
    have hp : (engineStep c p e).1 = e := h p List.mem_cons_self e
    have hps : (runCommands c stop ps e).1 = e := ih fun q hq => h q (List.mem_cons_of_mem p hq)
    by_cases hok : (engineStep c p e).2.status = .ok
    · rw [runCommands_cons_ok c stop p ps e hok, hp, hps]
    · cases stop with
      | true => rw [runCommands_cons_stop c p ps e hok, hp]
      | false => rw [runCommands_cons_goOn, hp, hps]

theorem runCommands_map_enc_engine (c : Tables) (stop : Bool) (vs : List Int) (e : Engine) :
    (runCommands c stop (vs.map fun v => (.enc, v)) e).1 = e :=
  runCommands_engine c stop _ e <| List.forall_mem_map.mpr fun _ _ _ => dataOp_engine _ _ _

theorem runCommands_map_dec_engine (c : Tables) (stop : Bool) (vs : List Int) (e : Engine) :
    (runCommands c stop (vs.map fun v => (.dec, v)) e).1 = e :=
  runCommands_engine c stop _ e <| List.forall_mem_map.mpr fun _ _ _ => dataOp_engine _ _ _

/-- An abstract command leaves the engine alone or is a `SETKEY` of a legal key. -/
theorem engineStep_engine_cases (c : Tables) (p : Op × Int) (e : Engine) :
    (engineStep c p e).1 = e ∨ ∃ a, KeyInRange a ∧ p = (.setkey, a) ∧ (engineStep c p e).1 = keyedWith c a := by
  obtain ⟨op, a⟩ := p
  cases op with
  | setkey =>
    by_cases h : KeyInRange a
    · exact .inr ⟨a, h, rfl, setkeyOp_engine_of_inRange c h e⟩
    · exact .inl (setkeyOp_engine_of_not_inRange c h e)
  | enc => exact .inl (dataOp_engine _ a e)
  | dec => exact .inl (dataOp_engine _ a e)

theorem commands_eq_setkey {i : Instr} {a : Int} (h : i.commands = [(.setkey, a)]) :
    i = .setkey a ∨ i = .construct a := by
  cases i with
  | setkey b => cases h; exact .inl rfl
  | construct k => cases h; exact .inr rfl
  | enc b => cases h
  | dec b => cases h
  | encseq vs => simp [Instr.commands, List.map_eq_cons_iff] at h
  | decseq vs => simp [Instr.commands, List.map_eq_cons_iff] at h

/-- An instruction leaves the engine alone or is a `SETKEY` or `CONSTRUCT` of a legal key (R26). -/
theorem exec_engine_cases {i : Instr} {s t : State} (h : exec i s = .next t) :
    t.engine = s.engine ∨
      ∃ a, KeyInRange a ∧ (i = .setkey a ∨ i = .construct a) ∧ t.engine = keyedWith cfg a := by
  obtain ⟨p, hp, rfl⟩ | ⟨vs, rfl, rfl⟩ | ⟨vs, rfl, rfl⟩ := exec_cases h
  · obtain hsame | ⟨a, ha, rfl, hkeyed⟩ := engineStep_engine_cases cfg p s.engine
    · exact .inl hsame
    · exact .inr ⟨a, ha, commands_eq_setkey hp, hkeyed⟩
  · exact .inl (runCommands_map_enc_engine ..)
  · exact .inl (runCommands_map_dec_engine ..)

/-- A pseudo-command has no word of its own (R52). -/
theorem decode_ne_construct (w : CommandWord) (k : Int) : decode w ≠ .legal (.construct k) := by
  rw [decode]
  split_ifs <;> simp

/-- The move presents the key `a` to the engine, legal or not. -/
def HostMove.PresentsKey (m : HostMove) (a : Int) : Prop :=
  m = .command (.setkey a) ∨ m = .command (.construct a) ∨ ∃ w, m = .word w ∧ decode w = .legal (.setkey a)

theorem keysEngine_iff (m : HostMove) : m.KeysEngine ↔ ∃ a, KeyInRange a ∧ m.PresentsKey a := Iff.rfl

/-- A step leaves the engine alone, resets it, or keys it with the legal key that the host presents. -/
theorem step_engine_cases {s t : State} (h : step s = .next t) :
    t.engine = s.engine ∨
    (∃ rest, s.moves = .reset :: rest ∧ t.engine = .unkeyed) ∨
    (∃ m rest a, s.moves = m :: rest ∧ KeyInRange a ∧ m.PresentsKey a ∧ t.engine = keyedWith cfg a) := by
  obtain ⟨-, rfl⟩ | ⟨i, rest, hmove, hexec⟩ | ⟨w, rest, -, -, rfl⟩ | ⟨rest, hmove, rfl⟩ := step_cases h
  · exact .inl rfl
  · obtain hsame | ⟨a, ha, hi, hkeyed⟩ := exec_engine_cases hexec
    · exact .inl hsame
    · refine .inr (.inr ?_)
      obtain hmove | ⟨w, hmove, hd⟩ := hmove
      · refine ⟨_, rest, a, hmove, ha, ?_, hkeyed⟩
        obtain rfl | rfl := hi
        · exact .inl rfl
        · exact .inr (.inl rfl)
      · obtain rfl | rfl := hi
        · exact ⟨_, rest, a, hmove, ha, .inr (.inr ⟨w, rfl, hd⟩), hkeyed⟩
        · exact absurd hd (decode_ne_construct w a)
  · exact .inl rfl
  · exact .inr (.inl ⟨rest, hmove, rfl⟩)

theorem step_of_moves_cons {s : State} {m : HostMove} {rest : List HostMove} (h : s.moves = m :: rest) :
    step s = perform m (s.withMoves rest) := by
  rw [step, takeMove, h]

/-! ### The obligations -/

/-- Settles O2: the one step that writes the subkeys writes the schedule of the key it writes. -/
theorem everyStepKeepsSubkeysMatchingKey : Obligations.EveryStepKeepsSubkeysMatchingKey := by
  intro s t hs h
  rw [State.Inv] at hs ⊢
  obtain hsame | ⟨-, -, hreset⟩ | ⟨-, -, a, -, ha, -, hkeyed⟩ := step_engine_cases h
  · rwa [hsame]
  · rw [hreset]
    exact subkeysMatchKey_unkeyed cfg
  · rw [hkeyed]
    exact keyedWith_subkeysMatchKey cfg ha

/-- Settles O4: the invariant of O2 holds at reset, whatever moves the host has placed, so in every state reached. -/
theorem reachableKeyedStatesHoldTheirSchedule : Obligations.ReachableKeyedStatesHoldTheirSchedule := by
  intro ms stops k t key k1 k2 hrun hkeyed
  have hreset : State.Inv { State.reset with moves := ms, stopsAtError := stops } := subkeysMatchKey_unkeyed cfg
  have hinv : t.engine.SubkeysMatchKey cfg :=
    runSteps_keeps State.Inv everyStepKeepsSubkeysMatchingKey hreset hrun
  rwa [hkeyed] at hinv

/-- Settles O5, by the three things a step can do to the engine. -/
theorem onlySetkeyAndResetChangeTheEngine : Obligations.OnlySetkeyAndResetChangeTheEngine := by
  intro s t h hne
  obtain hsame | ⟨rest, hmove, -⟩ | ⟨m, rest, a, hmove, ha, hkey, -⟩ := step_engine_cases h
  · exact absurd hsame hne
  · exact ⟨_, rest, hmove, .inl rfl⟩
  · exact ⟨m, rest, hmove, .inr ((keysEngine_iff m).mpr ⟨a, ha, hkey⟩)⟩

/-- Settles O6: a keying move, the only other one that writes the engine, leaves `KEYED = 1`. -/
theorem onlyResetClearsKeyed : Obligations.OnlyResetClearsKeyed := by
  intro s t h hs ht
  obtain hsame | ⟨rest, hmove, -⟩ | ⟨-, -, a, -, -, -, hkeyed⟩ := step_engine_cases h
  · rw [hsame, hs] at ht
    cases ht
  · exact ⟨rest, hmove⟩
  · rw [hkeyed, keyedWith_isKeyed] at ht
    cases ht

/-- Settles O7: the host's fields by the two ways an instruction can end, the engine by `exec_engine_cases`. -/
theorem frameOfEveryInstruction : Obligations.FrameOfEveryInstruction := by
  intro i s t h
  have hengine : (∀ a, i ≠ .setkey a ∧ i ≠ .construct a) → t.engine = s.engine := fun hi => by
    obtain hsame | ⟨a, -, hkey | hkey, -⟩ := exec_engine_cases h
    · exact hsame
    · exact absurd hkey (hi a).1
    · exact absurd hkey (hi a).2
  obtain ⟨p, -, rfl⟩ | ⟨vs, hi, rfl⟩ | ⟨vs, hi, rfl⟩ := exec_cases h
  · exact ⟨rfl, rfl, ⟨_, rfl⟩, fun _ => rfl, hengine⟩
  · exact ⟨rfl, rfl, ⟨_, rfl⟩, fun hne => absurd hi (hne vs).1, hengine⟩
  · exact ⟨rfl, rfl, ⟨_, rfl⟩, fun hne => absurd hi (hne vs).2, hengine⟩

/-- Settles O1: the reset move takes every state to its `resetEngine`, whose engine is that of the reset state. -/
theorem resetLeavesTheEngineUnkeyed : Obligations.ResetLeavesTheEngineUnkeyed :=
  ⟨⟨rfl, rfl, rfl, rfl⟩, fun s rest hmove =>
    ⟨(s.withMoves rest).resetEngine, step_of_moves_cons hmove, rfl, rfl, rfl, rfl, rfl⟩⟩

/-- Settles O3: the reset state is unkeyed and has no response. -/
theorem resetStateMeetsTheInvariants : Obligations.ResetStateMeetsTheInvariants :=
  ⟨subkeysMatchKey_unkeyed cfg, fun _ hr => absurd hr List.not_mem_nil⟩

end Sys2Proof.Machine
end

section
/-!
PROOF. The obligations on the engine instances (`20_memory.md` R34, R36). They rest on one fact: a step always answers a
next state (`step_answers`), so one step of a platform moves one instance, by its own step, and no other
(`stepInstance_answers`).
-/

namespace Sys2Proof.Machine

/-! ### Every step answers (R146) -/

theorem exec_answers (i : Instr) (s : State) : ∃ t, exec i s = .next t := by
  cases i <;> exact ⟨_, rfl⟩

theorem perform_answers (m : HostMove) (s : State) : ∃ t, perform m s = .next t := by
  cases m with
  | word w =>
    rw [perform]
    split
    next i _ => exact exec_answers i s
    next => exact ⟨_, rfl⟩
  | command i => exact exec_answers i s
  | reset => exact ⟨_, rfl⟩

theorem step_of_moves_nil {s : State} (h : s.moves = []) : step s = .next s := by
  rw [step, takeMove, h]

theorem step_answers (s : State) : ∃ t, step s = .next t := by
  cases hmoves : s.moves with
  | nil => exact ⟨s, step_of_moves_nil hmoves⟩
  | cons m rest =>
    rw [step_of_moves_cons hmoves]
    exact perform_answers m _

/-! ### One step of a platform -/

theorem stepInstance_of_none {n : Nat} {ms : List State} (h : ms[n]? = none) : stepInstance n ms = .next ms := by
  rw [stepInstance, h]

theorem stepInstance_of_step {n : Nat} {ms : List State} {s t : State} (h : ms[n]? = some s)
    (hstep : step s = .next t) : stepInstance n ms = .next (ms.set n t) := by
  simp only [stepInstance, h, hstep]

/-- One step of instance `n` takes it to where its own step leads, and leaves every other instance as it is. -/
theorem stepInstance_answers (n : Nat) (ms : List State) :
    ∃ ms', stepInstance n ms = .next ms' ∧ ms'.length = ms.length ∧
      (∀ s, ms[n]? = some s → ∃ t, step s = .next t ∧ ms'[n]? = some t) ∧ ∀ m, n ≠ m → ms'[m]? = ms[m]? := by
  cases hn : ms[n]? with
  | none => exact ⟨ms, stepInstance_of_none hn, rfl, fun _ hs => (nomatch hs), fun _ _ => rfl⟩
  | some s =>
    obtain ⟨t, hstep⟩ := step_answers s
    obtain ⟨hlt, -⟩ := List.getElem?_eq_some_iff.mp hn
    refine ⟨ms.set n t, stepInstance_of_step hn hstep, List.length_set, fun s' hs' => ?_, fun m hm => ?_⟩
    · cases hs'
      exact ⟨t, hstep, List.getElem?_set_self hlt⟩
    · exact List.getElem?_set_ne hm

theorem runInstances_cons_of_stepInstance {n : Nat} {ms ms' : List State} (ns : List Nat)
    (h : stepInstance n ms = .next ms') : runInstances (n :: ns) ms = runInstances ns ms' := by
  rw [runInstances, h]

/-! ### The obligations -/

/-- Settles O9, by induction on the schedule: its head is one step of its own for the instance it names, and none for
any other. -/
theorem interleavedInstancesRunAsIfAlone : Obligations.InterleavedInstancesRunAsIfAlone := by
  intro schedule
  induction schedule with
  | nil => exact fun ms => ⟨ms, rfl, rfl, fun n s hs => ⟨s, runSteps_zero s, hs⟩⟩
  | cons n ns ih =>
    intro ms
    obtain ⟨ms₁, hstep, hlen₁, hmoved, hstays⟩ := stepInstance_answers n ms
    obtain ⟨ms', hrun, hlen, halone⟩ := ih ms₁
    refine ⟨ms', (runInstances_cons_of_stepInstance ns hstep).trans hrun, hlen.trans hlen₁, fun m s hs => ?_⟩
    by_cases hm : n = m
    · subst hm
      obtain ⟨u, hu, hn⟩ := hmoved s hs
      rw [List.count_cons_self, runSteps_succ_of_step hu]
      exact halone n u hn
    · rw [List.count_cons_of_ne hm]
      exact halone m s ((hstays m hm).trans hs)

/-- Settles O8: a command that writes the engine is a `SETKEY` of a legal key, whose outcome does not depend on the
engine it finds. -/
theorem repeatedCommandChangesNothing : Obligations.RepeatedCommandChangesNothing := by
  intro c p e
  obtain hsame | ⟨a, ha, rfl, -⟩ := engineStep_engine_cases c p e
  · rw [hsame]
  · rw [engineStep_setkey, engineStep_setkey, setkeyOp_of_inRange c ha, setkeyOp_of_inRange c ha]

end Sys2Proof.Machine
end

section
/-!
PROOF. The obligations on words and commands (`30_encoding.md` R40 to R54) and on what responses carry (R46, R47). They
rest on two facts: `decode` and `encodeCommand` undo each other (`decode_encodeCommand`,
`encodeCommand_of_opcField`), and the step on a command word is the engine's step on the command it decodes to
(`step_of_command_word`).
-/

namespace Sys2Proof.Machine

/-! ### The argument field (R41, R43) -/

theorem argField_lt (w : CommandWord) : argField w < 4096 := Nat.mod_lt _ (by decide)

theorem sext12_argFits {n : Nat} (h : n < 4096) : ArgFits (sext12 n) := by
  rw [sext12]
  split <;> constructor <;> omega

theorem sext12_toNat_emod {a : Int} (h : ArgFits a) : sext12 (a % 4096).toNat = a := by
  rw [sext12]
  split <;> omega

theorem toNat_sext12_emod {n : Nat} (h : n < 4096) : (sext12 n % 4096).toNat = n := by
  rw [sext12]
  split <;> omega

/-- `sext12` is two's complement of 12 bits (R12). -/
theorem toInt_extractLsb'_eq_sext12 (w : CommandWord) : (w.extractLsb' 0 12).toInt = sext12 (argField w) := by
  have harg : (w.extractLsb' 0 12).toNat = argField w := BitVec.extractLsb'_toNat ..
  rw [BitVec.toInt_eq_toNat_cond, harg, sext12]
  split <;> split <;> omega

/-! ### The operation field (R41, R42) -/

theorem toNat_extractLsb'_eq_opcField (w : CommandWord) : (w.extractLsb' 12 4).toNat = opcField w := by
  rw [BitVec.extractLsb'_toNat, Nat.shiftRight_eq_div_pow, opcField]

/-- The two fields are the whole word. -/
theorem opcField_argField_eq_toNat (w : CommandWord) : opcField w * 4096 + argField w = w.toNat := by
  have hlt : w.toNat < 65536 := w.isLt
  rw [opcField, argField]
  omega

/-- The mask of R42 keeps the operation field and clears the argument field. -/
theorem toNat_and_opcode_mask (w : CommandWord) : (w &&& 0xF000#16).toNat = opcField w * 4096 := by
  have hmask : (0xF000#16).toNat = 2 ^ 12 * (2 ^ 4 - 1) := rfl
  have hopc : opcField w * 4096 = 2 ^ 12 * (w.toNat / 2 ^ 12 % 2 ^ 4) := Nat.mul_comm ..
  rw [BitVec.toNat_and, hmask, hopc]
  refine Nat.eq_of_testBit_eq fun i => ?_
  rw [Nat.testBit_and, Nat.testBit_two_pow_mul, Nat.testBit_two_pow_mul, Nat.testBit_two_pow_sub_one,
    Nat.testBit_mod_two_pow, Nat.testBit_div_two_pow]
  by_cases hi : 12 ≤ i
  · simp [hi, Bool.and_comm]
  · simp [hi]

theorem opcOf_lt (op : Op) : opcOf op < 4 := by cases op <;> decide

theorem and_opcode_mask_eq_iff (op : Op) (w : CommandWord) :
    w &&& 0xF000#16 = BitVec.ofNat 16 (opcOf op * 4096) ↔ opcField w = opcOf op := by
  have hop : opcOf op < 4 := opcOf_lt op
  rw [← BitVec.toNat_inj, toNat_and_opcode_mask, BitVec.toNat_ofNat]
  omega

/-! ### The decoder by its fields (R44, R45) -/

/-- A word whose operation field is the code of `op` decodes to that operation, with the signed argument field. -/
theorem decode_of_opcField {w : CommandWord} {op : Op} (h : opcField w = opcOf op) :
    decode w = .legal (Instr.ofCommand (op, sext12 (argField w))) := by
  cases op <;> simp [decode, h, opcOf, Instr.ofCommand]

/-- A word whose operation field is no operation's code is illegal (R44). -/
theorem decode_of_opcField_ne {w : CommandWord} (h : ∀ op, opcField w ≠ opcOf op) : decode w = .illegalCommand := by
  have hsetkey : opcField w ≠ 1 := h .setkey
  have henc : opcField w ≠ 2 := h .enc
  have hdec : opcField w ≠ 3 := h .dec
  rw [decode, if_neg hsetkey, if_neg henc, if_neg hdec]

theorem decode_cases (w : CommandWord) :
    (∃ op, opcField w = opcOf op ∧ decode w = .legal (Instr.ofCommand (op, sext12 (argField w)))) ∨
    ((∀ op, opcField w ≠ opcOf op) ∧ decode w = .illegalCommand) := by
  by_cases h : ∃ op, opcField w = opcOf op
  · obtain ⟨op, hop⟩ := h
    exact .inl ⟨op, hop, decode_of_opcField hop⟩
  · exact .inr ⟨not_exists.mp h, decode_of_opcField_ne (not_exists.mp h)⟩

theorem decode_eq_legal_iff (w : CommandWord) (i : Instr) :
    decode w = .legal i ↔ ∃ op, opcField w = opcOf op ∧ i = Instr.ofCommand (op, sext12 (argField w)) := by
  constructor
  · intro hi
    obtain ⟨op, hop, hd⟩ | ⟨-, hd⟩ := decode_cases w
    · rw [hd] at hi
      cases hi
      exact ⟨op, hop, rfl⟩
    · rw [hd] at hi
      cases hi
  · rintro ⟨op, hop, rfl⟩
    exact decode_of_opcField hop

theorem decode_eq_illegalCommand_iff (w : CommandWord) :
    decode w = .illegalCommand ↔ ∀ op, opcField w ≠ opcOf op := by
  refine ⟨fun hill op hop => ?_, decode_of_opcField_ne⟩
  rw [decode_of_opcField hop] at hill
  cases hill

theorem ofCommand_injective : Function.Injective Instr.ofCommand := by
  rintro ⟨op, a⟩ ⟨op', a'⟩ h
  cases op <;> cases op' <;> cases h <;> rfl

theorem exists_decode_eq_ofCommand_iff (op : Op) (w : CommandWord) :
    (∃ a, decode w = .legal (Instr.ofCommand (op, a))) ↔ opcField w = opcOf op := by
  refine ⟨fun ⟨a, ha⟩ => ?_, fun hop => ⟨_, decode_of_opcField hop⟩⟩
  obtain ⟨op', hop, heq⟩ := (decode_eq_legal_iff w _).mp ha
  cases ofCommand_injective heq
  exact hop

/-! ### The encoder, and that it and the decoder undo each other (R45) -/

theorem toNat_encodeCommand (op : Op) (a : Int) :
    (encodeCommand op a).toNat = opcOf op * 4096 + (a % 4096).toNat := by
  have hop : opcOf op < 4 := opcOf_lt op
  rw [encodeCommand, BitVec.toNat_ofNat]
  exact Nat.mod_eq_of_lt (by omega)

@[simp] theorem opcField_encodeCommand (op : Op) (a : Int) : opcField (encodeCommand op a) = opcOf op := by
  have hop : opcOf op < 4 := opcOf_lt op
  rw [opcField, toNat_encodeCommand]
  omega

@[simp] theorem argField_encodeCommand (op : Op) (a : Int) :
    argField (encodeCommand op a) = (a % 4096).toNat := by
  rw [argField, toNat_encodeCommand]
  omega

theorem decode_encodeCommand (op : Op) {a : Int} (h : ArgFits a) :
    decode (encodeCommand op a) = .legal (Instr.ofCommand (op, a)) := by
  rw [decode_of_opcField (opcField_encodeCommand op a), argField_encodeCommand, sext12_toNat_emod h]

theorem encodeCommand_of_opcField {w : CommandWord} {op : Op} (h : opcField w = opcOf op) :
    encodeCommand op (sext12 (argField w)) = w := by
  rw [← BitVec.toNat_inj, toNat_encodeCommand, toNat_sext12_emod (argField_lt w), ← h, opcField_argField_eq_toNat]

/-! ### The words of an instruction (R52) -/

theorem encode_ofCommand (op : Op) (a : Int) : encode (Instr.ofCommand (op, a)) = [encodeCommand op a] := by
  cases op <;> rfl

theorem wellFormed_ofCommand_iff (op : Op) (a : Int) : (Instr.ofCommand (op, a)).WellFormed = true ↔ ArgFits a := by
  cases op <;> exact decide_eq_true_iff

theorem argFits_of_mem_commands {i : Instr} (h : i.WellFormed = true) {op : Op} {a : Int}
    (hp : (op, a) ∈ i.commands) : ArgFits a := by
  have hexpansion : Laws.Expansion.Statement i := by
    cases i with
    | setkey a => exact Laws.Expansion.setkey a
    | enc a => exact Laws.Expansion.enc a
    | dec a => exact Laws.Expansion.dec a
    | construct k => exact Laws.Expansion.construct k
    | encseq vs => exact Laws.Expansion.encseq vs
    | decseq vs => exact Laws.Expansion.decseq vs
  obtain ⟨-, hcommands⟩ := hexpansion h
  exact (wellFormed_ofCommand_iff op a).mp (hcommands _ hp)

/-! ### The step on a command word (R45, R46) -/

theorem exec_ofCommand (p : Op × Int) (s : State) :
    exec (Instr.ofCommand p) s = .next (s.deliver (engineStep cfg p s.engine)) := by
  obtain ⟨op, a⟩ := p
  cases op <;> rfl

theorem step_of_legal_word {s : State} {w : CommandWord} {rest : List HostMove} {i : Instr}
    (hmoves : s.moves = .word w :: rest) (hd : decode w = .legal i) : step s = exec i (s.withMoves rest) := by
  rw [step_of_moves_cons hmoves, perform, hd]

theorem step_of_command_word {s : State} {w : CommandWord} {rest : List HostMove} {p : Op × Int}
    (hmoves : s.moves = .word w :: rest) (hd : decode w = .legal (Instr.ofCommand p)) :
    step s = .next ((s.withMoves rest).deliver (engineStep cfg p s.engine)) := by
  rw [step_of_legal_word hmoves hd, exec_ofCommand, withMoves_engine]

theorem step_of_illegal_word {s : State} {w : CommandWord} {rest : List HostMove}
    (hmoves : s.moves = .word w :: rest) (hd : decode w = .illegalCommand) :
    step s = .next ((s.withMoves rest).deliver (illegalOp s.engine)) := by
  rw [step_of_moves_cons hmoves, perform, hd, withMoves_engine]

/-- A host that does not stop gets one response per command (R46). -/
theorem length_runCommands_goOn (c : Tables) (ps : List (Op × Int)) (e : Engine) :
    (runCommands c false ps e).2.length = ps.length := by
  induction ps generalizing e with
  | nil => rfl
  | cons p ps ih => rw [runCommands_cons_goOn, List.length_cons, List.length_cons, ih]

/-! ### The keying instructions on every state (R73, R80, R81) -/

theorem exec_construct_eq_setkey (k : Int) (s : State) : exec (.construct k) s = exec (.setkey k) s := rfl

theorem exec_setkey_of_inRange {a : Int} (h : KeyInRange a) (s : State) :
    exec (.setkey a) s =
      .next { s with engine := keyedWith cfg a, responses := s.responses ++ [⟨.ok, 0⟩] } := by
  refine (exec_ofCommand (.setkey, a) s).trans ?_
  rw [engineStep_setkey, setkeyOp_of_inRange cfg h]
  rfl

theorem exec_setkey_of_not_inRange {a : Int} (h : ¬ KeyInRange a) (s : State) :
    exec (.setkey a) s = .next { s with responses := s.responses ++ [⟨.invalidKey, 0⟩] } := by
  refine (exec_ofCommand (.setkey, a) s).trans ?_
  rw [engineStep_setkey, setkeyOp_of_not_inRange cfg h]
  rfl

/-! ### What a response carries (R46, R47) -/

/-- The response carries data only if it is a success (R47). -/
def Response.DataOnlyIfOk (r : Response) : Prop := r.status ≠ .ok → r.data = 0

theorem respond_dataOnlyIfOk (e : Engine) (d : Nat) : (respond e d).2.DataOnlyIfOk := fun h => absurd rfl h

theorem raise_dataOnlyIfOk (x : Status) (e : Engine) : (raise x e).2.DataOnlyIfOk := fun _ => rfl

/-- `SETKEY` answers no data, whether it succeeds or not (R46). -/
theorem setkeyOp_data (c : Tables) (a : Int) (e : Engine) : (setkeyOp c a e).2.data = 0 := by
  by_cases h : KeyInRange a
  · rw [setkeyOp_of_inRange c h, respond_data, bitsOf]
    rfl
  · rw [setkeyOp_of_not_inRange c h, raise_data]

theorem dataOp_dataOnlyIfOk (f : Nat → Block → Block → Nat) (a : Int) (e : Engine) :
    (dataOp f a e).2.DataOnlyIfOk := by
  cases e with
  | unkeyed => exact raise_dataOnlyIfOk _ _
  | keyed key k1 k2 =>
    by_cases h : ByteInRange a
    · rw [dataOp_keyed_of_inRange f h]
      exact respond_dataOnlyIfOk _ _
    · rw [dataOp_keyed_of_not_inRange f h]
      exact raise_dataOnlyIfOk _ _

theorem engineStep_dataOnlyIfOk (c : Tables) (p : Op × Int) (e : Engine) : (engineStep c p e).2.DataOnlyIfOk := by
  obtain ⟨op, a⟩ := p
  cases op with
  | setkey => exact fun _ => setkeyOp_data c a e
  | enc => exact dataOp_dataOnlyIfOk _ a e
  | dec => exact dataOp_dataOnlyIfOk _ a e

theorem runCommands_dataOnlyIfOk (c : Tables) (stop : Bool) (ps : List (Op × Int)) (e : Engine) :
    ∀ r ∈ (runCommands c stop ps e).2, r.DataOnlyIfOk := by
  induction ps generalizing e with
  | nil => exact fun r hr => absurd hr List.not_mem_nil
  | cons p ps ih =>
    have hgoOn : ∀ r ∈ (engineStep c p e).2 :: (runCommands c stop ps (engineStep c p e).1).2, r.DataOnlyIfOk :=
      List.forall_mem_cons.mpr ⟨engineStep_dataOnlyIfOk c p e, ih _⟩
    by_cases hok : (engineStep c p e).2.status = .ok
    · rwa [runCommands_cons_ok c stop p ps e hok]
    · cases stop with
      | true =>
        rw [runCommands_cons_stop c p ps e hok]
        exact List.forall_mem_singleton.mpr (engineStep_dataOnlyIfOk c p e)
      | false => rwa [runCommands_cons_goOn]

theorem deliver_errorsCarryNoData {s : State} {r : Engine × Response} (hs : s.ErrorsCarryNoData)
    (hr : r.2.DataOnlyIfOk) : (s.deliver r).ErrorsCarryNoData :=
  List.forall_mem_append.mpr ⟨hs, List.forall_mem_singleton.mpr hr⟩

theorem deliverSequence_errorsCarryNoData {s : State} {q : Engine × List Response} (hs : s.ErrorsCarryNoData)
    (hq : ∀ r ∈ q.2, r.DataOnlyIfOk) : (s.deliverSequence q).ErrorsCarryNoData :=
  List.forall_mem_append.mpr ⟨hs, hq⟩

theorem exec_errorsCarryNoData {i : Instr} {s t : State} (hs : s.ErrorsCarryNoData) (h : exec i s = .next t) :
    t.ErrorsCarryNoData := by
  obtain ⟨p, -, rfl⟩ | ⟨vs, -, rfl⟩ | ⟨vs, -, rfl⟩ := exec_cases h
  · exact deliver_errorsCarryNoData hs (engineStep_dataOnlyIfOk _ _ _)
  · exact deliverSequence_errorsCarryNoData hs (runCommands_dataOnlyIfOk _ _ _ _)
  · exact deliverSequence_errorsCarryNoData hs (runCommands_dataOnlyIfOk _ _ _ _)

/-! ### The response word (R46) -/

theorem status_code_le (st : Status) : st.code ≤ 4 := by cases st <;> decide

theorem toNat_word (r : Response) : r.word.toNat = r.status.code * 256 + r.data.toNat := by
  have hcode : r.status.code ≤ 4 := status_code_le _
  have hdata : r.data.toNat < 256 := r.data.isLt
  rw [Response.word, BitVec.toNat_ofNat]
  exact Nat.mod_eq_of_lt (by omega)

theorem extractLsb'_word_status (r : Response) : (r.word.extractLsb' 8 3).toNat = r.status.code := by
  have hcode : r.status.code ≤ 4 := status_code_le _
  have hdata : r.data.toNat < 256 := r.data.isLt
  rw [BitVec.extractLsb'_toNat, Nat.shiftRight_eq_div_pow, toNat_word]
  omega

theorem extractLsb'_word_data (r : Response) : r.word.extractLsb' 0 8 = r.data := by
  have hdata : r.data.toNat < 256 := r.data.isLt
  rw [← BitVec.toNat_inj, BitVec.extractLsb'_toNat, Nat.shiftRight_zero, toNat_word]
  omega

/-! ### What the assembler accepts (R50) -/

theorem argFits_of_literal {cs : List Char} {a : Int} (h : literal cs = some a) : ArgFits a := by
  rw [literal] at h
  split at h
  next => cases h
  next b _ =>
    split at h
    next hb => cases h; exact hb
    next => cases h

theorem argFits_of_literals {css : List (List Char)} {as : List Int} (h : literals css = some as) :
    ∀ a ∈ as, ArgFits a := by
  induction css generalizing as with
  | nil => cases h; exact fun a ha => absurd ha List.not_mem_nil
  | cons cs rest ih =>
    rw [literals] at h
    split at h
    next a as' hfirst hrest =>
      cases h
      exact List.forall_mem_cons.mpr ⟨argFits_of_literal hfirst, ih hrest⟩
    next => cases h

theorem argFits_of_arguments {cs : List Char} {as : List Int} (h : arguments cs = some as) :
    ∀ a ∈ as, ArgFits a := by
  rw [arguments] at h
  split at h
  next => cases h; exact fun a ha => absurd ha List.not_mem_nil
  next => exact argFits_of_literals h

/-- A mnemonic's command takes the arguments as they are written: a sequence all of them, any other the one. -/
theorem commandOf_cases {mnemonic : List Char} {as : List Int} {i : Instr} (h : commandOf mnemonic as = some i) :
    i = .encseq as ∨ i = .decseq as ∨
      ∃ a, as = [a] ∧ (i = .setkey a ∨ i = .enc a ∨ i = .dec a ∨ i = .construct a) := by
  unfold commandOf at h
  split at h
  next => cases h; exact .inl rfl
  next =>
    split at h
    next => cases h; exact .inr (.inl rfl)
    next =>
      split at h
      next a => split_ifs at h <;> cases h <;> exact .inr (.inr ⟨a, rfl, by simp⟩)
      next => cases h

theorem wellFormed_of_commandOf {mnemonic : List Char} {as : List Int} {i : Instr}
    (h : commandOf mnemonic as = some i) (has : ∀ a ∈ as, ArgFits a) : i.WellFormed = true := by
  have hall : (as.all fun a => decide (ArgFits a)) = true :=
    List.all_eq_true.mpr fun a ha => decide_eq_true (has a ha)
  obtain rfl | rfl | ⟨a, rfl, hi⟩ := commandOf_cases h
  · exact hall
  · exact hall
  · have ha : decide (ArgFits a) = true := decide_eq_true (has a List.mem_cons_self)
    obtain rfl | rfl | rfl | rfl := hi <;> exact ha

theorem exists_arguments_of_assembleLine {line : List Char} {i : Instr} (h : assembleLine line = .command i) :
    ∃ cs as mnemonic, arguments cs = some as ∧ commandOf mnemonic as = some i := by
  simp only [assembleLine] at h
  split at h
  next => cases h
  next =>
    split at h
    next => cases h
    next as has =>
      split at h
      next => cases h
      next j hj => cases h; exact ⟨_, as, _, has, hj⟩

/-! ### The obligations -/

/-- Settles O10: the fields by `extractLsb'`, the word by its value, and `decode_encodeCommand`. -/
theorem decodeOfEncodeIsTheCommand : Obligations.DecodeOfEncodeIsTheCommand := by
  refine ⟨fun w => ?_, fun op a hlow hhigh => ⟨?_, decode_encodeCommand op ⟨hlow, hhigh⟩⟩⟩
  · rw [toNat_extractLsb'_eq_opcField, toInt_extractLsb'_eq_sext12, decode]
  · rw [toNat_encodeCommand]
    cases op <;> simp only [opcOf] <;> omega

/-- Settles O16, by induction on the commands: the first word's step is the first command's, and the rest run from the
state it leaves. -/
theorem runningWordsIsRunningCommands : Obligations.RunningWordsIsRunningCommands := by
  intro ps s rest hfits hmoves
  refine ⟨length_runCommands_goOn cfg ps s.engine, ?_⟩
  induction ps generalizing s with
  | nil =>
    obtain rfl : s.moves = rest := hmoves
    simp
  | cons p ps ih =>
    obtain ⟨hp, hps⟩ := List.forall_mem_cons.mp hfits
    have hstep := step_of_command_word hmoves (decode_encodeCommand p.1 hp)
    rw [List.length_cons, runSteps_succ_of_step hstep, ih _ hps rfl, runCommands_cons_goOn]
    simp [State.deliver, State.withMoves]

/-- Settles O11: every command of the expansion fits its word, which therefore decodes to it. -/
theorem wordsDecodeToTheExpansion : Obligations.WordsDecodeToTheExpansion := by
  intro i hi
  rw [encode, List.map_map]
  exact List.map_congr_left fun ⟨op, a⟩ hp => decode_encodeCommand op (argFits_of_mem_commands hi hp)

/-- Settles O12: a legal word's instruction is the command of its two fields, and they are the whole word. -/
theorem legalWordIsTheWordOfItsInstruction : Obligations.LegalWordIsTheWordOfItsInstruction := by
  intro w i hd
  obtain ⟨op, hop, rfl⟩ := (decode_eq_legal_iff w i).mp hd
  refine ⟨(wellFormed_ofCommand_iff op _).mpr (sext12_argFits (argField_lt w)), ?_⟩
  rw [encode_ofCommand, encodeCommand_of_opcField hop]

/-- Settles O13: matching under the mask, and decoding to an operation, both say what the operation field is. -/
theorem opcodeMapByMatchAndMask : Obligations.OpcodeMapByMatchAndMask := by
  intro w
  have hmatch (op : Op) : w &&& 0xF000#16 = BitVec.ofNat 16 (opcOf op * 4096) ↔
      ∃ a, decode w = .legal (Instr.ofCommand (op, a)) :=
    (and_opcode_mask_eq_iff op w).trans (exists_decode_eq_ofCommand_iff op w).symm
  have hnone : (∀ op, w &&& 0xF000#16 ≠ BitVec.ofNat 16 (opcOf op * 4096)) ↔ decode w = .illegalCommand :=
    (forall_congr' fun op => not_congr (and_opcode_mask_eq_iff op w)).trans (decode_eq_illegalCommand_iff w).symm
  refine ⟨hmatch .setkey, hmatch .enc, hmatch .dec, ?_⟩
  rw [← hnone]
  refine ⟨fun ⟨hsetkey, henc, hdec⟩ op => ?_, fun h => ⟨h .setkey, h .enc, h .dec⟩⟩
  cases op with
  | setkey => exact hsetkey
  | enc => exact henc
  | dec => exact hdec

/-- Settles O15: the fields of the response word, and the one response of a legal and of an illegal command word. -/
theorem responseWordAndItsFields : Obligations.ResponseWordAndItsFields := by
  refine ⟨fun r => ⟨toNat_word r, extractLsb'_word_status r, extractLsb'_word_data r, status_code_le _⟩,
    ⟨rfl, rfl, rfl, rfl, rfl⟩, fun s w rest hmoves => ?_⟩
  obtain ⟨op, -, hd⟩ | ⟨-, hd⟩ := decode_cases w
  · refine ⟨_, _, step_of_command_word hmoves hd, rfl, engineStep_dataOnlyIfOk _ _ _, fun a ha => ?_⟩
    rw [hd, Decoded.legal.injEq] at ha
    cases ofCommand_injective (a₂ := (.setkey, a)) ha
    exact setkeyOp_data ..
  · exact ⟨_, _, step_of_illegal_word hmoves hd, rfl, raise_dataOnlyIfOk _ _, fun _ _ => rfl⟩

/-- Settles O49: a step adds no response, or those of one instruction, or that of an illegal word. -/
theorem everyStepKeepsErrorsWithoutData : Obligations.EveryStepKeepsErrorsWithoutData := by
  intro s t hs h
  obtain ⟨-, rfl⟩ | ⟨i, rest, -, hexec⟩ | ⟨w, rest, -, -, rfl⟩ | ⟨rest, -, rfl⟩ := step_cases h
  · exact hs
  · exact exec_errorsCarryNoData (s := s.withMoves rest) hs hexec
  · exact deliver_errorsCarryNoData (s := s.withMoves rest) hs (raise_dataOnlyIfOk _ _)
  · exact hs

/-- Settles O54: every argument of an accepted line was read by `literal`, which refuses what does not fit. -/
theorem assembledLinesAreWellFormed : Obligations.AssembledLinesAreWellFormed := by
  intro line i h
  obtain ⟨cs, as, mnemonic, has, hcommand⟩ := exists_arguments_of_assembleLine h
  exact wellFormed_of_commandOf hcommand (argFits_of_arguments has)

/-- Settles O14: the decoder evaluated on nine words. -/
theorem workedEncodings : Obligations.WorkedEncodings := by
  rw [Obligations.WorkedEncodings]
  decide

/-- Settles O26: `CONSTRUCT` is `SETKEY`, and that is its rule for a legal and for an illegal key. -/
theorem constructFollowsTheSetkeyRule : Obligations.ConstructFollowsTheSetkeyRule := by
  constructor
  · intro k s hlow hhigh
    rw [exec_construct_eq_setkey, exec_setkey_of_inRange ⟨hlow, hhigh⟩, keyedWith]
  · intro k s hout
    have hk : ¬ KeyInRange k := by omega
    rw [exec_construct_eq_setkey, exec_setkey_of_not_inRange hk]

end Sys2Proof.Machine
end

section
/-!
PROOF. The obligations on the primitives and on the tables (`40_primitives_and_tables.md` R56 to R66, R71). They rest on
what each primitive holds at an index (`Laws/Bits.lean`), on one fact about permutations (every position of the vector
is an entry of the table, `exists_getElem_eq_succ`), and on one about tables that undo each other
(`perm_perm_of_undoes`).
-/

namespace Sys2Proof.Machine

/-! ### Integers and vectors (R58, R59) -/

theorem getMsbD_bitsOf (n x : Nat) {i : Nat} (h : i < n) :
    (bitsOf n x).getMsbD i = decide (x / 2 ^ (n - 1 - i) % 2 = 1) := by
  have hbit : n - 1 - i < n := by omega
  rw [bitsOf, BitVec.getMsbD_eq_getLsbD, BitVec.getLsbD_ofNat, Nat.testBit_eq_decide_div_mod_eq]
  simp only [h, hbit, decide_true, Bool.true_and]

theorem bitsOf_intOf {n : Nat} (v : BitVec n) : bitsOf n (intOf v) = v := by
  rw [bitsOf, intOf, BitVec.ofNat_toNat, BitVec.setWidth_eq]

/-- Appending a bit doubles the weight of every other one. -/
theorem intOf_concat {n : Nat} (v : BitVec n) (b : Bool) : intOf (v.concat b) = intOf v * 2 + b.toNat :=
  BitVec.toNat_concat v b

/-- The weighted sum of R59, by induction along `build`. -/
theorem intOf_build {n : Nat} (f : Fin n → Bool) :
    intOf (build n f) = ∑ i : Fin n, (f i).toNat * 2 ^ (n - 1 - i.val) := by
  induction n with
  | zero => rfl
  | succ n ih =>
    have hweight (i : Fin n) : 2 ^ (n - i.val) = 2 ^ (n - 1 - i.val) * 2 := by
      rw [← Nat.pow_succ]
      congr 1
      omega
    rw [build, intOf_concat, ih, Fin.sum_univ_castSucc, Finset.sum_mul]
    simp [hweight, Nat.mul_assoc]

theorem intOf_eq_sum {n : Nat} (v : BitVec n) :
    intOf v = ∑ i : Fin n, (v.getMsbD i).toNat * 2 ^ (n - 1 - i.val) := by
  have hv : v = build n fun i => v.getMsbD i := (eq_build_iff v _).mpr fun _ => rfl
  rw [← intOf_build, ← hv]

/-! ### Permutations as tables (R65) -/

section
variable {n : Nat} {T : Vector Nat n}

theorem positionsIn_getElem {m : Nat} {T : Vector Nat m} (h : PositionsIn n T) (i : Fin m) :
    1 ≤ T[i] ∧ T[i] ≤ n :=
  h _ (Vector.mem_toList_iff.mpr (Vector.getElem_mem i.isLt))

theorem idxOf_getElem_of_isPermutation (h : IsPermutation T) (i : Fin n) : T.toList.idxOf T[i] = i := by
  obtain ⟨-, hnodup⟩ := h
  simpa using hnodup.idxOf_getElem i (by simp)

/-- `n` different entries among `n` positions are all of them. -/
theorem toList_perm_range'_of_isPermutation (h : IsPermutation T) : T.toList.Perm (List.range' 1 n) := by
  obtain ⟨hin, hnodup⟩ := h
  have hsubset : T.toList ⊆ List.range' 1 n := by
    intro x hx
    have hx' := hin x hx
    rw [List.mem_range'_1]
    omega
  exact (hnodup.subperm hsubset).perm_of_length_le (by simp)

theorem exists_getElem_eq_succ (h : IsPermutation T) {j : Nat} (hj : j < n) : ∃ i : Fin n, T[i] = j + 1 := by
  have hmem : j + 1 ∈ T.toList := by
    rw [(toList_perm_range'_of_isPermutation h).mem_iff, List.mem_range'_1]
    omega
  obtain ⟨i, hi, hT⟩ := Vector.getElem_of_mem (Vector.mem_toList_iff.mp hmem)
  exact ⟨⟨i, hi⟩, hT⟩

/-- Vectors that agree at every position a permutation names are equal. -/
theorem eq_of_getMsbD_position (h : IsPermutation T) {v w : BitVec n}
    (hvw : ∀ i : Fin n, v.getMsbD (T[i] - 1) = w.getMsbD (T[i] - 1)) : v = w := by
  refine BitVec.eq_of_getMsbD_eq fun j hj => ?_
  obtain ⟨i, hi⟩ := exists_getElem_eq_succ h hj
  simpa [hi] using hvw i

/-! ### Scattering undoes gathering (R61, R66, R71) -/

/-- `out(T(i) - 1) = v(i)` (R61). -/
theorem getMsbD_unperm_position (h : IsPermutation T) (v : BitVec n) (i : Fin n) :
    (unperm T v).getMsbD (T[i] - 1) = v.getMsbD i := by
  have hT := positionsIn_getElem h.1 i
  rw [getMsbD_unperm T v (by omega), Nat.sub_add_cancel hT.1, idxOf_getElem_of_isPermutation h]

theorem perm_unperm (h : IsPermutation T) (v : BitVec n) : perm T (unperm T v) = v := by
  refine BitVec.eq_of_getMsbD_eq fun i hi => ?_
  rw [getMsbD_perm T _ hi]
  exact getMsbD_unperm_position h v ⟨i, hi⟩

theorem unperm_perm (h : IsPermutation T) (v : BitVec n) : unperm T (perm T v) = v := by
  refine eq_of_getMsbD_position h fun i => ?_
  rw [getMsbD_unperm_position h, getMsbD_perm T v i.isLt]
  rfl

theorem perm_perm_of_undoes {U : Vector Nat n} (h : Undoes T U) (v : BitVec n) : perm U (perm T v) = v := by
  refine BitVec.eq_of_getMsbD_eq fun i hi => ?_
  obtain ⟨hbound, hentry⟩ := List.getElem?_eq_some_iff.mp (h ⟨i, hi⟩)
  have hlt : U[i] - 1 < n := by simpa using hbound
  have hT : T[U[i] - 1] = i + 1 := by simpa using hentry
  calc (perm U (perm T v)).getMsbD i
    _ = (perm T v).getMsbD (U[i] - 1) := getMsbD_perm U _ hi
    _ = v.getMsbD (T[U[i] - 1] - 1) := getMsbD_perm T v hlt
    _ = v.getMsbD i := by rw [hT, Nat.add_sub_cancel]

theorem unperm_eq_perm_of_undoes {U : Vector Nat n} (hU : IsPermutation U) (h : Undoes T U) (v : BitVec n) :
    unperm U v = perm T v := by
  calc unperm U v
    _ = unperm U (perm U (perm T v)) := by rw [perm_perm_of_undoes h]
    _ = perm T v := unperm_perm hU _

end

/-! ### Slices, rotation and exclusive-or (R56, R57, R62, R63) -/

theorem cast_slice_append_slice {n : Nat} (v : BitVec n) {i : Nat} (h : i - 0 + (n - i) = n) :
    (slice v 0 i ++ slice v i n).cast h = v := by
  refine BitVec.eq_of_getMsbD_eq fun k hk => ?_
  rw [BitVec.getMsbD_cast, BitVec.getMsbD_append, getMsbD_slice, getMsbD_slice, Nat.sub_zero]
  split
  next hhigh =>
    have hlt : k - i < n - i := by omega
    have hsum : i + (k - i) = k := by omega
    rw [hsum, decide_eq_true hlt, Bool.true_and]
  next hlow =>
    have hlt : k < i := by omega
    rw [Nat.zero_add, decide_eq_true hlt, Bool.true_and]

theorem getMsbD_iterate_rotl1 {n : Nat} (v : BitVec n) (k : Nat) {i : Nat} (h : i < n) :
    (rotl1^[k] v).getMsbD i = v.getMsbD ((i + k) % n) := by
  induction k generalizing i with
  | zero => simp [Nat.mod_eq_of_lt h]
  | succ k ih =>
    have hmod : (i + 1) % n < n := Nat.mod_lt _ (by omega)
    rw [Function.iterate_succ_apply', getMsbD_rotl1 _ h, ih hmod, Nat.mod_add_mod, Nat.add_right_comm, Nat.add_assoc]

/-- As many rotations as there are positions bring every bit home. -/
theorem iterate_rotl1_length {n : Nat} (v : BitVec n) : rotl1^[n] v = v := by
  refine BitVec.eq_of_getMsbD_eq fun i hi => ?_
  rw [getMsbD_iterate_rotl1 v n hi, Nat.add_mod_right, Nat.mod_eq_of_lt hi]

theorem xor_vec_comm {n : Nat} (v w : BitVec n) : xor v w = xor w v := BitVec.xor_comm v w

@[simp] theorem xor_vec_self {n : Nat} (v : BitVec n) : xor v v = 0#n := BitVec.xor_self

@[simp] theorem xor_vec_cancel_right {n : Nat} (v w : BitVec n) : xor (xor v w) w = v := by
  rw [xor, xor, BitVec.xor_assoc, BitVec.xor_self, BitVec.xor_zero]

/-! ### The obligations -/

/-- Settles O18: the bits of `bitsOf`, the weighted sum along `build`, and the two inverse laws. -/
theorem bitsAndIntegersMostSignificantFirst : Obligations.BitsAndIntegersMostSignificantFirst :=
  ⟨fun n x _ _ hi => getMsbD_bitsOf n x hi, fun _ => intOf_eq_sum, fun _ v => ⟨intOf_lt v, bitsOf_intOf v⟩,
    fun _ _ => intOf_bitsOf⟩

/-- Settles O20: a permutation's scatter at the position of each entry, and from it both inverse laws. -/
theorem unpermScattersAndInvertsPerm : Obligations.UnpermScattersAndInvertsPerm :=
  fun _ _ v hT => ⟨getMsbD_unperm_position hT v, unperm_perm hT v, perm_unperm hT v⟩

/-- Settles O23: a gather through one table undoes the gather through the other, and a scatter undoes a gather. -/
theorem finalPermutationIsTheInverseOfTheInitialOne : Obligations.FinalPermutationIsTheInverseOfTheInitialOne :=
  fun _ hc v => ⟨perm_perm_of_undoes hc.ip_fp v, perm_perm_of_undoes hc.fp_ip v,
    unperm_eq_perm_of_undoes hc.fp hc.ip_fp v, unperm_eq_perm_of_undoes hc.ip hc.fp_ip v⟩

/-- Settles O17: the three laws index by index. -/
theorem sliceAndConcatenationByIndex : Obligations.SliceAndConcatenationByIndex := by
  refine ⟨fun n v i j k _ _ hk => ?_, fun m n v w k _ => ?_, fun n v i h _ => cast_slice_append_slice v h⟩
  · simp [getMsbD_slice, hk]
  · rw [BitVec.getMsbD_append]
    rcases Nat.lt_or_ge k m with hlow | hhigh
    · rw [if_neg (Nat.not_le.mpr hlow), if_pos hlow]
    · rw [if_pos hhigh, if_neg (Nat.not_lt.mpr hhigh)]

/-- Settles O19: the entries of a position table lie in the vector, and `perm` reads there. -/
theorem permGathersByPosition : Obligations.PermGathersByPosition := by
  intro m n T v hT i
  have hi := positionsIn_getElem hT i
  exact ⟨by omega, getMsbD_perm T v i.isLt⟩

/-- Settles O21: the rotation by index, and five rotations as `rotl1^[5]`. -/
theorem rotationByOnePosition : Obligations.RotationByOnePosition :=
  ⟨fun _ v _ hi => getMsbD_rotl1 v hi, fun v => iterate_rotl1_length v⟩

/-- Settles O22: the bit of `xor` at an index, and the three laws. -/
theorem exclusiveOrByIndex : Obligations.ExclusiveOrByIndex := by
  refine ⟨fun n v w i _ => ?_, fun n v w => ⟨xor_vec_comm v w, xor_vec_cancel_right v w, xor_vec_self v⟩⟩
  rw [getMsbD_xor_vec]
  cases v.getMsbD i <;> cases w.getMsbD i <;> rfl

/-- Settles O24: each condition evaluated on the default tables. -/
theorem defaultTablesAreWellFormed : Obligations.DefaultTablesAreWellFormed where
  p10 := by decide
  p8 := by decide
  ip := by decide
  fp := by decide
  ep := by decide
  p4 := by decide
  ip_fp := by decide
  fp_ip := by decide

end Sys2Proof.Machine
end

section
/-!
PROOF. The obligations on the key schedule (`41_key_schedule.md` R73 to R80). Both subkeys are P8 of the permuted key
with its halves rotated, by one position and by two (R76, R78), so one fact says where each of their bits comes from:
`getMsbD_rotateHalves`.
-/

namespace Sys2Proof.Machine

/-- The 10-bit key with each half of five bits rotated by `r` positions (R76, R78). -/
def rotateHalves (r : Nat) (p : KeyBits) : KeyBits := rotl1^[r] (slice p 0 5) ++ rotl1^[r] (slice p 5 10)

theorem keySchedule_fst (c : Tables) (a : Nat) :
    (keySchedule c a).1 = perm c.p8 (rotateHalves 1 (keyAfterP10 c a)) := rfl

theorem keySchedule_snd (c : Tables) (a : Nat) :
    (keySchedule c a).2 = perm c.p8 (rotateHalves 2 (keyAfterP10 c a)) := rfl

theorem rotatedIndex_of_lt (r : Nat) {q : Nat} (h : q < 5) : rotatedIndex r q = (q + r) % 5 := if_pos h

theorem rotatedIndex_of_not_lt (r : Nat) {q : Nat} (h : ¬ q < 5) : rotatedIndex r q = 5 + (q - 5 + r) % 5 := if_neg h

theorem rotatedIndex_lt (r q : Nat) : rotatedIndex r q < 10 := by
  rw [rotatedIndex]
  split <;> omega

/-- A half rotated `k` times, by the bits of the vector it was cut from. -/
theorem getMsbD_iterate_rotl1_slice {n : Nat} (v : BitVec n) (i j k : Nat) {q : Nat} (h : q < j - i) :
    (rotl1^[k] (slice v i j)).getMsbD q = v.getMsbD (i + (q + k) % (j - i)) := by
  have hmod : (q + k) % (j - i) < j - i := Nat.mod_lt _ (by omega)
  rw [getMsbD_iterate_rotl1 _ k h, getMsbD_slice, decide_eq_true hmod, Bool.true_and]

/-- Each index reads in its own half, `r` positions further on, going round. -/
theorem getMsbD_rotateHalves (r : Nat) (p : KeyBits) {q : Nat} (h : q < 10) :
    (rotateHalves r p).getMsbD q = p.getMsbD (rotatedIndex r q) := by
  rw [rotateHalves, BitVec.getMsbD_append]
  split
  next hleft =>
    rw [rotatedIndex_of_not_lt r (by omega), getMsbD_iterate_rotl1_slice p 5 10 r (by omega)]
  next hright =>
    rw [rotatedIndex_of_lt r (by omega), getMsbD_iterate_rotl1_slice p 0 5 r (by omega), Nat.zero_add]

/-- The permuted key holds at `j` the key bit of the weight that P10 leads to (R74, R75). -/
theorem getMsbD_keyAfterP10 {c : Tables} (hp10 : PositionsIn 10 c.p10) (a : Nat) {j : Nat} (h : j < 10) :
    (keyAfterP10 c a).getMsbD j = decide (a / 2 ^ (9 - (c.p10.toList.getD j 0 - 1)) % 2 = 1) := by
  have hpos : 1 ≤ c.p10[j] ∧ c.p10[j] ≤ 10 := positionsIn_getElem hp10 ⟨j, h⟩
  have hentry : c.p10.toList.getD j 0 = c.p10[j] := by simp [h]
  rw [keyAfterP10, getMsbD_perm _ _ h, hentry]
  exact getMsbD_bitsOf 10 a (by omega)

/-- A subkey's bit is the key bit that P8, the rotation of its half by `r` positions and P10 lead to (R79). -/
theorem getMsbD_perm_p8_rotateHalves {c : Tables} (hc : c.WF) (r a : Nat) (i : Fin 8) :
    (perm c.p8 (rotateHalves r (keyAfterP10 c a))).getMsbD i =
      decide (a / 2 ^ (9 - (c.p10.toList.getD (rotatedIndex r (c.p8[i] - 1)) 0 - 1)) % 2 = 1) := by
  have hp8 := positionsIn_getElem hc.p8 i
  calc (perm c.p8 (rotateHalves r (keyAfterP10 c a))).getMsbD i
    _ = (rotateHalves r (keyAfterP10 c a)).getMsbD (c.p8[i] - 1) := getMsbD_perm _ _ i.isLt
    _ = (keyAfterP10 c a).getMsbD (rotatedIndex r (c.p8[i] - 1)) := getMsbD_rotateHalves r _ (by omega)
    _ = _ := getMsbD_keyAfterP10 hc.p10.1 a (rotatedIndex_lt r _)

/-! ### The obligations -/

/-- Settles O27: K1 and K2 are one construction, with one rotation and with two. -/
theorem keyScheduleBitByBit : Obligations.KeyScheduleBitByBit := by
  intro c a i hc _
  rw [keySchedule_fst, keySchedule_snd]
  exact ⟨getMsbD_perm_p8_rotateHalves hc 1 a i, getMsbD_perm_p8_rotateHalves hc 2 a i⟩

/-- Settles O25: the outcome of `SETKEY` for a legal and for an illegal key, and the two response words. -/
theorem setkeyFollowsItsRule : Obligations.SetkeyFollowsItsRule := by
  refine ⟨fun a s hlow hhigh => exec_setkey_of_inRange ⟨hlow, hhigh⟩ s, fun a s hout => ?_, rfl, rfl⟩
  have ha : ¬ KeyInRange a := by omega
  exact exec_setkey_of_not_inRange ha s

end Sys2Proof.Machine
end

section
/-!
PROOF. The obligations on the round function (`42_round_function.md` R82 to R90). Each stage of `functionK` has one
lemma: the bits that reach the S-boxes (`getMsbD_sboxInput`), the lookup (`sbox_eq_getElem`), and the unpacking of the
two values (`getMsbD_bitsOf_append_bitsOf`).
-/

namespace Sys2Proof.Machine

/-- The expanded half against the subkey (R83, R84): the eight bits that select from the two S-boxes. -/
def sboxInput (c : Tables) (h : Half) (K : Block) : Block := xor (perm c.ep h) K

theorem functionK_eq (c : Tables) (h : Half) (K : Block) :
    functionK c h K = perm c.p4 (bitsOf 2 (sbox c.sbox1 (slice (sboxInput c h K) 0 4)) ++
      bitsOf 2 (sbox c.sbox2 (slice (sboxInput c h K) 4 8))) := rfl

theorem getMsbD_sboxInput (c : Tables) (h : Half) (K : Block) (i : Fin 8) :
    (sboxInput c h K).getMsbD i = (h.getMsbD (c.ep[i] - 1) != K.getMsbD i) := by
  rw [sboxInput, getMsbD_xor_vec, getMsbD_perm _ _ i.isLt]
  rfl

/-- A row or column number is determined by its two selector bits. -/
theorem eq_selector {n : Fin 4} {first second : Bool} (h : n.val = 2 * first.toNat + second.toNat) :
    n = selector first second :=
  Fin.ext (h.trans (selector_val first second).symm)

theorem sbox_eq_getElem (S : Vector (Vector (Fin 4) 4) 4) {g : Half} {row col : Fin 4}
    (hrow : row.val = 2 * (g.getMsbD 0).toNat + (g.getMsbD 1).toNat)
    (hcol : col.val = 2 * (g.getMsbD 2).toNat + (g.getMsbD 3).toNat) : sbox S g = S[row][col].val := by
  obtain rfl := eq_selector hrow
  obtain rfl := eq_selector hcol
  rfl

/-- Two values of two bits side by side (R86): index by index, the high and the low bit of each. -/
theorem getMsbD_bitsOf_append_bitsOf (s1 s2 : Fin 4) (k : Fin 4) :
    (bitsOf 2 s1 ++ bitsOf 2 s2).getMsbD k =
      decide ([s1.val / 2, s1.val % 2, s2.val / 2, s2.val % 2].getD k 0 = 1) := by
  revert s1 s2 k
  decide

/-! ### The obligations -/

/-- Settles O30: the bits `x` are those of `sboxInput`, so its two slices select the given rows and columns. -/
theorem roundFunctionBitByBit : Obligations.RoundFunctionBitByBit := by
  intro c h K x row1 col1 row2 col2 j hc hx hrow1 hcol1 hrow2 hcol2
  have hinput {k : Nat} (hk : k < 8) : (sboxInput c h K).getMsbD k = x k :=
    (getMsbD_sboxInput c h K ⟨k, hk⟩).trans (hx ⟨k, hk⟩).symm
  have hleft {k : Nat} (hk : k < 4) : (slice (sboxInput c h K) 0 4).getMsbD k = x k := by
    simp [getMsbD_slice, hk, hinput (show k < 8 by omega)]
  have hright {k : Nat} (hk : k < 4) : (slice (sboxInput c h K) 4 8).getMsbD k = x (4 + k) := by
    simp [getMsbD_slice, hk, hinput (show 4 + k < 8 by omega)]
  have hsbox1 : sbox c.sbox1 (slice (sboxInput c h K) 0 4) = c.sbox1[row1][col1].val :=
    sbox_eq_getElem c.sbox1 (by simpa [hleft] using hrow1) (by simpa [hleft] using hcol1)
  have hsbox2 : sbox c.sbox2 (slice (sboxInput c h K) 4 8) = c.sbox2[row2][col2].val :=
    sbox_eq_getElem c.sbox2 (by simpa [hright] using hrow2) (by simpa [hright] using hcol2)
  have hp4 := positionsIn_getElem hc.p4.1 j
  rw [functionK_eq, hsbox1, hsbox2, getMsbD_perm _ _ j.isLt]
  exact getMsbD_bitsOf_append_bitsOf c.sbox1[row1][col1] c.sbox2[row2][col2] ⟨c.p4[j] - 1, by omega⟩

/-- Settles O29: the lookup at the selected row and column, and the two selectors as the row and column that exist. -/
theorem sboxRowFromTheFirstTwoBits : Obligations.SboxRowFromTheFirstTwoBits :=
  ⟨fun S _ _ _ hrow hcol => sbox_eq_getElem S hrow hcol, fun _ =>
    ⟨selector _ _, selector _ _, selector_val _ _, selector_val _ _⟩⟩

/-- Settles O31: `functionK` evaluated on the sixteen halves, once per subkey. -/
theorem roundFunctionTables : Obligations.RoundFunctionTables :=
  ⟨by decide, by decide⟩

end Sys2Proof.Machine
end

section
/-!
PROOF. The obligations on encryption (`43_encrypt.md` R91 to R97), and what they share with decryption: a unit is the
concatenation of its two halves, and a data command ends in one of three ways, whatever its block function.
-/

namespace Sys2Proof.Machine

/-! ### The block function (R92) -/

/-- A unit is its left half followed by its right half (R57). -/
theorem slice_append_slice_block (v : Block) : (slice v 0 4 ++ slice v 4 8 : Block) = v :=
  cast_slice_append_slice v rfl

theorem intOf_block_le (v : Block) : intOf v ≤ 255 := Nat.le_of_lt_succ (intOf_lt v)

theorem encryptBlock_le (c : Tables) (a : Nat) (k1 k2 : Block) : encryptBlock c a k1 k2 ≤ 255 := intOf_block_le _

/-! ### A data command on every state (R91, R96, R98, R104) -/

section
variable (f : Nat → Block → Block → Nat) {a : Int} {s : State} {key : KeyBits} {k1 k2 : Block}

theorem deliver_dataOp_of_inRange (he : s.engine = .keyed key k1 k2) (h : ByteInRange a) :
    s.deliver (dataOp f a s.engine) =
      { s with responses := s.responses ++ [⟨.ok, bitsOf 8 (f a.toNat k1 k2)⟩] } := by
  rw [he, dataOp_keyed_of_inRange f h, ← he]
  rfl

theorem deliver_dataOp_of_not_inRange (he : s.engine = .keyed key k1 k2) (h : ¬ ByteInRange a) :
    s.deliver (dataOp f a s.engine) = { s with responses := s.responses ++ [⟨.invalidByteValue, 0⟩] } := by
  rw [he, dataOp_keyed_of_not_inRange f h, ← he]
  rfl

theorem deliver_dataOp_of_unkeyed (he : s.engine = .unkeyed) :
    s.deliver (dataOp f a s.engine) = { s with responses := s.responses ++ [⟨.noKey, 0⟩] } := by
  rw [he, dataOp_unkeyed, ← he]
  rfl

end

theorem exec_enc (a : Int) (s : State) :
    exec (.enc a) s = .next (s.deliver (dataOp (encryptBlock cfg) a s.engine)) := exec_ofCommand (.enc, a) s

/-! ### The obligations -/

/-- Settles O34: L0 and R0 are the two halves of the permuted unit, L1 and R2 the half each round writes. -/
theorem encryptionIsTwoRounds : Obligations.EncryptionIsTwoRounds := by
  intro c a k1 k2 _
  have hhalves := slice_append_slice_block (perm c.ip (bitsOf 8 a))
  exact ⟨_, _, _, _, hhalves.symm, rfl, rfl, rfl, encryptBlock_le c a k1 k2⟩

/-- Settles O32: the three ends of a data command, with `encryptBlock` as its block function. -/
theorem encFollowsItsRule : Obligations.EncFollowsItsRule := by
  refine ⟨fun a s key k1 k2 he hlow hhigh => ?_, fun a s he => ?_, fun a s key k1 k2 he hout => ?_, rfl⟩
  · rw [exec_enc, deliver_dataOp_of_inRange _ he ⟨hlow, hhigh⟩]
  · rw [exec_enc, deliver_dataOp_of_unkeyed _ he]
  · have ha : ¬ ByteInRange a := by omega
    rw [exec_enc, deliver_dataOp_of_not_inRange _ he ha]

end Sys2Proof.Machine
end

section
/-!
PROOF. The obligations on decryption (`44_decrypt.md` R98 to R105). What it shares with encryption stands there: the
halves of a unit (`slice_append_slice_block`) and the three ends of a data command (`deliver_dataOp_of_inRange`,
`deliver_dataOp_of_unkeyed`, `deliver_dataOp_of_not_inRange`).
-/

namespace Sys2Proof.Machine

theorem decryptBlock_le (c : Tables) (a : Nat) (k1 k2 : Block) : decryptBlock c a k1 k2 ≤ 255 := intOf_block_le _

theorem exec_dec (a : Int) (s : State) :
    exec (.dec a) s = .next (s.deliver (dataOp (decryptBlock cfg) a s.engine)) := exec_ofCommand (.dec, a) s

/-! ### The obligations -/

/-- Settles O35: Ld and Rd are the two halves of the un-permuted unit, Lo and Ro the half each round writes. -/
theorem decryptionIsTwoRoundsBackwards : Obligations.DecryptionIsTwoRoundsBackwards := by
  intro c a k1 k2 _
  have hhalves := slice_append_slice_block (unperm c.fp (bitsOf 8 a))
  exact ⟨_, _, _, _, hhalves.symm, rfl, rfl, rfl, decryptBlock_le c a k1 k2⟩

/-- Settles O33: the three ends of a data command, with `decryptBlock` as its block function. -/
theorem decFollowsItsRule : Obligations.DecFollowsItsRule := by
  refine ⟨fun a s key k1 k2 he hlow hhigh => ?_, fun a s he => ?_, fun a s key k1 k2 he hout => ?_, rfl⟩
  · rw [exec_dec, deliver_dataOp_of_inRange _ he ⟨hlow, hhigh⟩]
  · rw [exec_dec, deliver_dataOp_of_unkeyed _ he]
  · have ha : ¬ ByteInRange a := by omega
    rw [exec_dec, deliver_dataOp_of_not_inRange _ he ha]

end Sys2Proof.Machine
end

section
/-!
PROOF. The obligations on sequences (`45_sequences.md` R107, R108). A sequence is told by the responses of its units
(`exec_encseq`, `exec_decseq`): legal units answer one by one before whatever follows them
(`unitResponses_append_of_inRange`), and at the first error the host's choice decides only how many responses are still
to come (`unitResponses_cons_of_raise`).
-/

namespace Sys2Proof.Machine

/-! ### The result of a sequence from its responses (R107, R108) -/

theorem seqResult_cons_of_ok {r : Response} {rs : List Response} {ds : List Block} (h : r.status = .ok)
    (hrs : seqResult rs = .units ds) : seqResult (r :: rs) = .units (r.data :: ds) := by
  rw [seqResult, if_pos h, hrs]

theorem seqResult_cons_of_ok_of_failed {r : Response} {rs : List Response} {x : Status} (h : r.status = .ok)
    (hrs : seqResult rs = .failed x) : seqResult (r :: rs) = .failed x := by
  rw [seqResult, if_pos h, hrs]

theorem seqResult_cons_of_ne_ok {r : Response} (rs : List Response) (h : r.status ≠ .ok) :
    seqResult (r :: rs) = .failed r.status := by
  rw [seqResult, if_neg h]

theorem seqResult_of_forall_ok {rs : List Response} (h : ∀ r ∈ rs, r.status = .ok) :
    seqResult rs = .units (rs.map Response.data) := by
  induction rs with
  | nil => rfl
  | cons r rs ih =>
    obtain ⟨hr, hrs⟩ := List.forall_mem_cons.mp h
    exact seqResult_cons_of_ok hr (ih hrs)

/-- The status of the first response that is an error is the result, whatever comes after it. -/
theorem seqResult_append_cons_of_ne_ok {qs : List Response} {r : Response} (rs : List Response)
    (hqs : ∀ q ∈ qs, q.status = .ok) (hr : r.status ≠ .ok) : seqResult (qs ++ r :: rs) = .failed r.status := by
  induction qs with
  | nil => exact seqResult_cons_of_ne_ok rs hr
  | cons q qs ih =>
    obtain ⟨hq, hqs⟩ := List.forall_mem_cons.mp hqs
    exact seqResult_cons_of_ok_of_failed hq (ih hqs)

/-! ### The responses of a sequence's units -/

/-- The operation is a data command with the block function `f`: `ENC` or `DEC`. -/
def IsDataCommand (c : Tables) (op : Op) (f : Nat → Block → Block → Nat) : Prop :=
  ∀ a e, engineStep c (op, a) e = dataOp f a e

theorem isDataCommand_enc (c : Tables) : IsDataCommand c .enc (encryptBlock c) := engineStep_enc c

theorem isDataCommand_dec (c : Tables) : IsDataCommand c .dec (decryptBlock c) := engineStep_dec c

/-- The responses to the units `vs`, each presented with the operation `op`. -/
def unitResponses (c : Tables) (stop : Bool) (op : Op) (vs : List Int) (e : Engine) : List Response :=
  (runCommands c stop (vs.map fun v => (op, v)) e).2

/-- `ENCSEQ` delivers the responses of its units and leaves the engine alone (R107, R108). -/
theorem exec_encseq (vs : List Int) (s : State) : exec (.encseq vs) s =
    .next (s.deliverSequence (s.engine, unitResponses cfg s.stopsAtError .enc vs s.engine)) :=
  congrArg (fun q => Host.Outcome.next (s.deliverSequence q)) (Prod.ext (runCommands_map_enc_engine ..) rfl)

/-- `DECSEQ` delivers the responses of its units and leaves the engine alone (R107, R108). -/
theorem exec_decseq (vs : List Int) (s : State) : exec (.decseq vs) s =
    .next (s.deliverSequence (s.engine, unitResponses cfg s.stopsAtError .dec vs s.engine)) :=
  congrArg (fun q => Host.Outcome.next (s.deliverSequence q)) (Prod.ext (runCommands_map_dec_engine ..) rfl)

/-- What `ENCSEQ` and `DECSEQ` share. -/
theorem exec_sequence {i : List Int → Instr} (hi : i = .encseq ∨ i = .decseq) :
    ∃ op f, IsDataCommand cfg op f ∧ ∀ vs s, exec (i vs) s =
      .next (s.deliverSequence (s.engine, unitResponses cfg s.stopsAtError op vs s.engine)) := by
  obtain rfl | rfl := hi
  · exact ⟨.enc, _, isDataCommand_enc cfg, exec_encseq⟩
  · exact ⟨.dec, _, isDataCommand_dec cfg, exec_decseq⟩

@[simp] theorem unitResponses_nil (c : Tables) (stop : Bool) (op : Op) (e : Engine) :
    unitResponses c stop op [] e = [] := rfl

section
variable {c : Tables} {op : Op} {f : Nat → Block → Block → Nat} (stop : Bool)

theorem unitResponses_cons_of_inRange (hop : IsDataCommand c op f) {v : Int} (hv : ByteInRange v) (vs : List Int)
    (key : KeyBits) (k1 k2 : Block) : unitResponses c stop op (v :: vs) (.keyed key k1 k2) =
      ⟨.ok, bitsOf 8 (f v.toNat k1 k2)⟩ :: unitResponses c stop op vs (.keyed key k1 k2) := by
  have hstep : engineStep c (op, v) (.keyed key k1 k2) = respond (.keyed key k1 k2) (f v.toNat k1 k2) :=
    (hop v _).trans (dataOp_keyed_of_inRange f hv key k1 k2)
  have hok : (engineStep c (op, v) (.keyed key k1 k2)).2.status = .ok := by rw [hstep, respond_status]
  rw [unitResponses, List.map_cons, runCommands_cons_ok c stop _ _ _ hok, hstep]
  rfl

/-- Legal units on a keyed engine answer in order, each by itself, and the rest as if they had not been there. -/
theorem unitResponses_append_of_inRange (hop : IsDataCommand c op f) {us : List Int} (hus : ∀ u ∈ us, ByteInRange u)
    (ws : List Int) (key : KeyBits) (k1 k2 : Block) : unitResponses c stop op (us ++ ws) (.keyed key k1 k2) =
      (us.map fun u => ⟨.ok, bitsOf 8 (f u.toNat k1 k2)⟩) ++ unitResponses c stop op ws (.keyed key k1 k2) := by
  induction us with
  | nil => rfl
  | cons u us ih =>
    obtain ⟨hu, hus⟩ := List.forall_mem_cons.mp hus
    rw [List.cons_append, unitResponses_cons_of_inRange stop hop hu, ih hus, List.map_cons, List.cons_append]

/-- After an error, a host that stops gets no further response, and one that goes on a response per unit left. -/
theorem unitResponses_cons_of_raise (hop : IsDataCommand c op f) {v : Int} {e : Engine} {x : Status} (hx : x ≠ .ok)
    (hv : dataOp f v e = raise x e) (ws : List Int) :
    ∃ rs, unitResponses c stop op (v :: ws) e = ⟨x, 0⟩ :: rs ∧ rs.length = if stop then 0 else ws.length := by
  have hstep : engineStep c (op, v) e = raise x e := (hop v e).trans hv
  have herror : (engineStep c (op, v) e).2.status ≠ .ok := by rwa [hstep, raise_status]
  rw [unitResponses, List.map_cons]
  cases stop with
  | true =>
    rw [runCommands_cons_stop c _ _ _ herror, hstep]
    exact ⟨[], rfl, rfl⟩
  | false =>
    rw [runCommands_cons_goOn, hstep]
    exact ⟨_, rfl, (length_runCommands_goOn ..).trans (List.length_map ..)⟩

end

/-! ### A sequence on every state -/

section
variable {op : Op} {f : Nat → Block → Block → Nat} (s : State)

theorem deliverSequence_of_inRange (hop : IsDataCommand cfg op f) {key : KeyBits} {k1 k2 : Block}
    (he : s.engine = .keyed key k1 k2) {vs : List Int} (hvs : ∀ v ∈ vs, ByteInRange v) :
    s.deliverSequence (s.engine, unitResponses cfg s.stopsAtError op vs s.engine) = { s with
      responses := s.responses ++ vs.map fun v => ⟨.ok, bitsOf 8 (f v.toNat k1 k2)⟩
      results := s.results ++ [.units (vs.map fun v => bitsOf 8 (f v.toNat k1 k2))] } := by
  have hrs : unitResponses cfg s.stopsAtError op vs s.engine =
      vs.map fun v => ⟨.ok, bitsOf 8 (f v.toNat k1 k2)⟩ := by
    simpa [he] using unitResponses_append_of_inRange s.stopsAtError hop hvs [] key k1 k2
  have hresult := seqResult_of_forall_ok (rs := vs.map fun v => ⟨.ok, bitsOf 8 (f v.toNat k1 k2)⟩)
    (List.forall_mem_map.mpr fun _ _ => rfl)
  rw [hrs, State.deliverSequence, hresult, List.map_map]
  rfl

/-- A first error `x` after the successes `qs` is the result, and the engine is what it was. -/
theorem deliverSequence_of_raise (hop : IsDataCommand cfg op f) {us ws : List Int} {v : Int} {qs : List Response}
    {x : Status} (hx : x ≠ .ok) (hv : dataOp f v s.engine = raise x s.engine) (hqs : ∀ q ∈ qs, q.status = .ok)
    (hus : unitResponses cfg s.stopsAtError op (us ++ v :: ws) s.engine =
      qs ++ unitResponses cfg s.stopsAtError op (v :: ws) s.engine) :
    ∃ rs, s.deliverSequence (s.engine, unitResponses cfg s.stopsAtError op (us ++ v :: ws) s.engine) =
        { s with responses := s.responses ++ rs, results := s.results ++ [.failed x] } ∧
      rs.length = qs.length + if s.stopsAtError then 1 else (v :: ws).length := by
  obtain ⟨rs, hrs, hlen⟩ := unitResponses_cons_of_raise s.stopsAtError hop hx hv ws
  refine ⟨qs ++ ⟨x, 0⟩ :: rs, ?_, ?_⟩
  · rw [hus, hrs, State.deliverSequence, seqResult_append_cons_of_ne_ok rs hqs hx]
  · rw [List.length_append, List.length_cons, hlen, List.length_cons]
    split <;> rfl

end

/-! ### The obligations -/

/-- Settles O36: every unit of either sequence is answered with its own block function. -/
theorem sequenceOfLegalUnits : Obligations.SequenceOfLegalUnits := by
  intro s key k1 k2 vs he hvs
  rw [exec_encseq, exec_decseq, deliverSequence_of_inRange s (isDataCommand_enc cfg) he hvs,
    deliverSequence_of_inRange s (isDataCommand_dec cfg) he hvs]
  exact ⟨rfl, rfl⟩

/-- Settles O37: the responses are the successes before the first error, the error, and as many more as the host's
choice lets through. -/
theorem sequenceErrors : Obligations.SequenceErrors := by
  refine ⟨fun i s key k1 k2 us ws v hi he hus hv => ?_, fun i s v ws hi he => ?_, fun i s hi => ?_⟩
  all_goals obtain ⟨op, f, hop, hexec⟩ := exec_sequence hi
  · have hbad : ¬ ByteInRange v := by omega
    have hraise : dataOp f v s.engine = raise .invalidByteValue s.engine := by
      rw [he, dataOp_keyed_of_not_inRange f hbad]
    have happend := unitResponses_append_of_inRange s.stopsAtError hop hus (v :: ws) key k1 k2
    rw [← he] at happend
    obtain ⟨rs, hnext, hlen⟩ := deliverSequence_of_raise s hop (by decide) hraise
      (List.forall_mem_map.mpr fun _ _ => rfl) happend
    refine ⟨rs, by rw [hexec, hnext], ?_⟩
    rw [hlen, List.length_map, List.length_append]
    split <;> rfl
  · have hraise : dataOp f v s.engine = raise .noKey s.engine := by rw [he, dataOp_unkeyed]
    obtain ⟨rs, hnext, hlen⟩ := deliverSequence_of_raise s hop (us := []) (ws := ws) (by decide) hraise
      (List.forall_mem_nil _) rfl
    exact ⟨rs, (hexec _ s).trans (congrArg _ hnext), hlen.trans (Nat.zero_add _)⟩
  · rw [hexec, unitResponses_nil, State.deliverSequence, List.append_nil]
    rfl

end Sys2Proof.Machine
end

section
/-!
PROOF. The obligations on the contract (`46_contract_properties.md` R111 to R118). Encryption and decryption are one
pair of rounds between two permutations, with the subkeys in either order, and `twoRounds_twoRounds` says that the pair
with the subkeys exchanged undoes it. Determinism rests on `step_of_word_keeping_engine`: a word that is no `SETKEY` of
a legal key adds a response and leaves the engine alone.
-/

namespace Sys2Proof.Machine

/-! ### The two halves of a unit (R56, R57) -/

theorem slice_append_left (v w : Half) : slice (v ++ w : Block) 0 4 = v := by
  refine BitVec.eq_of_getMsbD_eq fun i hi => ?_
  have hlow : ¬ 4 ≤ i := by omega
  rw [getMsbD_slice, decide_eq_true hi, Bool.true_and, Nat.zero_add, BitVec.getMsbD_append, if_neg hlow]

theorem slice_append_right (v w : Half) : slice (v ++ w : Block) 4 8 = w := by
  refine BitVec.eq_of_getMsbD_eq fun i hi => ?_
  rw [getMsbD_slice, decide_eq_true hi, Bool.true_and, BitVec.getMsbD_append, if_pos (Nat.le_add_right 4 i),
    Nat.add_sub_cancel_left]

/-! ### The two rounds, and that they undo themselves (R111, R112) -/

/-- What `encryptBlock` and `decryptBlock` do between their two permutations (R93 to R95, R101 to R103): a round with
`k`, a round with `k'`, and the half written last in front. -/
def twoRounds (c : Tables) (k k' : Block) (v : Block) : Block :=
  let l0 : Half := slice v 0 4
  let r0 : Half := slice v 4 8
  let l1 := xor l0 (functionK c r0 k)
  xor r0 (functionK c l1 k') ++ l1

theorem twoRounds_append (c : Tables) (k k' : Block) (l r : Half) :
    twoRounds c k k' (l ++ r : Block) =
      xor r (functionK c (xor l (functionK c r k)) k') ++ xor l (functionK c r k) := by
  rw [twoRounds, slice_append_left, slice_append_right]

theorem encryptBlock_eq_twoRounds (c : Tables) (a : Nat) (k1 k2 : Block) :
    encryptBlock c a k1 k2 = intOf (perm c.fp (twoRounds c k1 k2 (perm c.ip (bitsOf 8 a)))) := rfl

theorem decryptBlock_eq_twoRounds (c : Tables) (a : Nat) (k1 k2 : Block) :
    decryptBlock c a k1 k2 = intOf (unperm c.ip (twoRounds c k2 k1 (unperm c.fp (bitsOf 8 a)))) := rfl

/-- Whatever the round function is: each round adds it to one half, and adding it once more takes it away. -/
theorem twoRounds_twoRounds (c : Tables) (k k' v : Block) : twoRounds c k' k (twoRounds c k k' v) = v := by
  obtain ⟨l, r, rfl⟩ : ∃ l r : Half, v = l ++ r := ⟨_, _, (slice_append_slice_block v).symm⟩
  rw [twoRounds_append, twoRounds_append, xor_vec_cancel_right, xor_vec_cancel_right]

section
variable {c : Tables} (hc : c.WF) {b : Nat} (k1 k2 : Block)
include hc

theorem decryptBlock_encryptBlock (hb : b ≤ 255) : decryptBlock c (encryptBlock c b k1 k2) k1 k2 = b := by
  rw [decryptBlock_eq_twoRounds, encryptBlock_eq_twoRounds, bitsOf_intOf, unperm_perm hc.fp, twoRounds_twoRounds,
    unperm_perm hc.ip, intOf_bitsOf (Nat.lt_succ_of_le hb)]

theorem encryptBlock_decryptBlock (hb : b ≤ 255) : encryptBlock c (decryptBlock c b k1 k2) k1 k2 = b := by
  rw [encryptBlock_eq_twoRounds, decryptBlock_eq_twoRounds, bitsOf_intOf, perm_unperm hc.ip, twoRounds_twoRounds,
    perm_unperm hc.fp, intOf_bitsOf (Nat.lt_succ_of_le hb)]

end

/-! ### The block functions on units as vectors -/

theorem toNat_bitsOf_of_le {b : Nat} (h : b ≤ 255) : (bitsOf 8 b).toNat = b := intOf_bitsOf (Nat.lt_succ_of_le h)

/-- Whatever a response carries is again a legal unit. -/
theorem byteInRange_toNat (d : Block) : ByteInRange d.toNat :=
  ⟨Int.natCast_nonneg _, Int.ofNat_le.mpr (intOf_block_le d)⟩

/-- A block function that undoes another on the units does so on the vectors that carry them. -/
theorem leftInverse_bitsOf {f g : Nat → Nat} (hf : ∀ b, f b ≤ 255) (hgf : ∀ b ≤ 255, g (f b) = b) :
    Function.LeftInverse (fun d : Block => bitsOf 8 (g d.toNat)) (fun d : Block => bitsOf 8 (f d.toNat)) := by
  intro d
  have hd : g (f d.toNat) = d.toNat := hgf _ (intOf_block_le d)
  calc bitsOf 8 (g (bitsOf 8 (f d.toNat)).toNat)
    _ = bitsOf 8 d.toNat := by rw [toNat_bitsOf_of_le (hf _), hd]
    _ = d := bitsOf_intOf d

/-! ### When a data command succeeds (R91, R98) -/

/-- A success comes of a keyed engine and a legal unit, and its data is the block function's value. -/
theorem eq_of_dataOp_eq_ok {f : Nat → Block → Block → Nat} {a : Int} {e : Engine} {d : Block}
    (h : (dataOp f a e).2 = ⟨.ok, d⟩) :
    ∃ key k1 k2, e = .keyed key k1 k2 ∧ ByteInRange a ∧ d = bitsOf 8 (f a.toNat k1 k2) := by
  cases e with
  | unkeyed => cases h
  | keyed key k1 k2 =>
    by_cases ha : ByteInRange a
    · rw [dataOp_keyed_of_inRange f ha] at h
      cases h
      exact ⟨key, k1, k2, rfl, ha, rfl⟩
    · rw [dataOp_keyed_of_not_inRange f ha] at h
      cases h

/-- `ENC` and `DEC` are the two data commands as instructions. -/
theorem exec_dataCommand {i : Int → Instr} (hi : i = .enc ∨ i = .dec) :
    ∃ f, ∀ a s, exec (i a) s = .next (s.deliver (dataOp f a s.engine)) := by
  obtain rfl | rfl := hi
  · exact ⟨_, exec_enc⟩
  · exact ⟨_, exec_dec⟩

theorem exists_eq_keyed_of_isKeyed {e : Engine} (h : e.isKeyed = true) : ∃ key k1 k2, e = .keyed key k1 k2 := by
  cases e with
  | unkeyed => cases h
  | keyed key k1 k2 => exact ⟨key, k1, k2, rfl⟩

/-! ### Words that leave the engine alone (R97, R105, R113) -/

theorem engineStep_engine_of_ne_setkey (c : Tables) {op : Op} (h : op ≠ .setkey) (a : Int) (e : Engine) :
    (engineStep c (op, a) e).1 = e := by
  obtain hsame | ⟨_, _, hp, _⟩ := engineStep_engine_cases c (op, a) e
  · exact hsame
  · cases hp
    exact absurd rfl h

/-- The engine as it was, the host with the moves `rest` left and the responses `rs` more. -/
def State.answered (s : State) (rest : List HostMove) (rs : List Response) : State :=
  { s with moves := rest, responses := s.responses ++ rs }

theorem answered_nil (s : State) : s.answered s.moves [] = s := by
  rw [State.answered, List.append_nil]

theorem answered_answered (s : State) (ms rest : List HostMove) (qs rs : List Response) :
    (s.answered ms qs).answered rest rs = s.answered rest (qs ++ rs) := by
  rw [State.answered, State.answered, List.append_assoc, State.answered]

/-- The end of a move that leaves the engine alone. -/
theorem deliver_withMoves_eq_answered {s : State} {r : Engine × Response} (rest : List HostMove)
    (h : r.1 = s.engine) : (s.withMoves rest).deliver r = s.answered rest [r.2] := by
  rw [State.deliver, h]
  rfl

/-- The word of a data command: the response depends on nothing but the engine. -/
theorem step_of_data_word {op : Op} {a : Int} {rest : List HostMove} {s : State} (hop : op ≠ .setkey)
    (ha : ArgFits a) (hmoves : s.moves = .word (encodeCommand op a) :: rest) :
    step s = .next (s.answered rest [(engineStep cfg (op, a) s.engine).2]) := by
  rw [step_of_command_word hmoves (decode_encodeCommand op ha),
    deliver_withMoves_eq_answered rest (engineStep_engine_of_ne_setkey cfg hop a s.engine)]

/-- The word is no `SETKEY` of a legal key. -/
def KeepsEngine (w : CommandWord) : Prop := ∀ k, decode w = .legal (.setkey k) → ¬ KeyInRange k

theorem step_of_word_keeping_engine {w : CommandWord} {rest : List HostMove} {s : State} (hw : KeepsEngine w)
    (hmoves : s.moves = .word w :: rest) : ∃ r, step s = .next (s.answered rest [r]) := by
  obtain ⟨op, -, hd⟩ | ⟨-, hd⟩ := decode_cases w
  · obtain hsame | ⟨a, ha, hp, -⟩ := engineStep_engine_cases cfg (op, sext12 (argField w)) s.engine
    · exact ⟨_, (step_of_command_word hmoves hd).trans (congrArg _ (deliver_withMoves_eq_answered rest hsame))⟩
    · rw [hp] at hd
      exact absurd ha (hw a hd)
  · exact ⟨_, (step_of_illegal_word hmoves hd).trans (congrArg _ (deliver_withMoves_eq_answered rest rfl))⟩

/-- A run of such words: one response for each, and then whatever the host does next. -/
theorem runSteps_words_keeping_engine {ws : List CommandWord} {rest : List HostMove} {s : State}
    (hws : ∀ w ∈ ws, KeepsEngine w) (hmoves : s.moves = ws.map HostMove.word ++ rest) (k : Nat) :
    ∃ rs, rs.length = ws.length ∧ runSteps (ws.length + k) s = runSteps k (s.answered rest rs) := by
  induction ws generalizing s with
  | nil =>
    obtain rfl : s.moves = rest := hmoves
    exact ⟨[], rfl, by rw [List.length_nil, Nat.zero_add, answered_nil]⟩
  | cons w ws ih =>
    obtain ⟨hw, hws⟩ := List.forall_mem_cons.mp hws
    obtain ⟨r, hstep⟩ := step_of_word_keeping_engine hw hmoves
    obtain ⟨rs, hlen, hrun⟩ := ih (s := s.answered (ws.map HostMove.word ++ rest) [r]) hws rfl
    rw [answered_answered] at hrun
    refine ⟨r :: rs, congrArg (· + 1) hlen, ?_⟩
    rw [List.length_cons, Nat.add_right_comm]
    exact (runSteps_succ_of_step hstep).trans hrun

/-! ### The result of a sequence of legal units -/

theorem seqResult_unitResponses_of_inRange {c : Tables} {op : Op} {f : Nat → Block → Block → Nat} (stop : Bool)
    (hop : IsDataCommand c op f) {vs : List Int} (hvs : ∀ v ∈ vs, ByteInRange v) (key : KeyBits) (k1 k2 : Block) :
    seqResult (unitResponses c stop op vs (.keyed key k1 k2)) =
      .units (vs.map fun v => bitsOf 8 (f v.toNat k1 k2)) := by
  have hrs := unitResponses_append_of_inRange stop hop hvs [] key k1 k2
  rw [List.append_nil, unitResponses_nil, List.append_nil] at hrs
  rw [hrs, seqResult_of_forall_ok (List.forall_mem_map.mpr fun _ _ => rfl), List.map_map]
  rfl

/-! ### The obligations -/

/-- Settles O38: the rounds undo themselves between permutations that cancel; and as a successful `ENC` comes of a
legal unit and a keyed engine, `DEC` of its data, again a legal unit, succeeds with the unit. -/
theorem decryptionUndoesEncryption : Obligations.DecryptionUndoesEncryption := by
  refine ⟨fun c k1 k2 b hc hb => decryptBlock_encryptBlock hc k1 k2 hb, fun c e e' k b d hc _ henc => ?_⟩
  obtain ⟨key, k1, k2, rfl, hb, rfl⟩ := eq_of_dataOp_eq_ok henc
  have hnat : b.toNat ≤ 255 := by omega
  refine ⟨?_, by omega⟩
  rw [engineStep_dec, dataOp_keyed_of_inRange _ (byteInRange_toNat _), Int.toNat_natCast,
    toNat_bitsOf_of_le (encryptBlock_le ..), decryptBlock_encryptBlock hc k1 k2 hnat]
  rfl

/-- Settles O39: the same two rounds with the subkeys exchanged. -/
theorem encryptionUndoesDecryption : Obligations.EncryptionUndoesDecryption :=
  fun _ k1 k2 _ hc hb => encryptBlock_decryptBlock hc k1 k2 hb

/-- Settles O40: the first and the last word find the same engine, and their response depends on nothing else. -/
theorem equalDataCommandsGiveEqualResponses : Obligations.EqualDataCommandsGiveEqualResponses := by
  intro op a ws rest s hop ha hmoves hws
  let w := HostMove.word (encodeCommand op a)
  let r := (engineStep cfg (op, a) s.engine).2
  have hfirst : step s = .next (s.answered _ [r]) := step_of_data_word hop ha hmoves
  obtain ⟨rs, hlen, hbetween⟩ := runSteps_words_keeping_engine (s := s.answered _ [r]) (rest := w :: rest) hws rfl 1
  rw [answered_answered] at hbetween
  have hlast : step (s.answered (w :: rest) ([r] ++ rs)) = .next (s.answered rest (r :: rs ++ [r])) := by
    rw [step_of_data_word hop ha rfl, answered_answered]
    rfl
  have hrun : runSteps (ws.length + 2) s = .next (s.answered rest (r :: rs ++ [r])) :=
    (runSteps_succ_of_step hfirst).trans (hbetween.trans (runSteps_succ_of_step hlast))
  exact ⟨_, r, rs, hrun, hlen, rfl, rfl, rfl⟩

/-- Settles O44: the units of the encryption are legal units, each of which decrypts to the one it came from. -/
theorem sequenceRoundTrip : Obligations.SequenceRoundTrip := by
  intro c stop key k1 k2 vs hc hvs
  refine ⟨_, seqResult_unitResponses_of_inRange stop (isDataCommand_enc c) hvs key k1 k2, ?_⟩
  have hunits : ∀ u ∈ (vs.map fun v => bitsOf 8 (encryptBlock c v.toNat k1 k2)).map fun d => (d.toNat : Int),
      ByteInRange u := List.forall_mem_map.mpr fun d _ => byteInRange_toNat d
  have hdec := seqResult_unitResponses_of_inRange stop (isDataCommand_dec c) hunits key k1 k2
  rw [unitResponses, List.map_map] at hdec
  refine hdec.trans (congrArg SeqResult.units ?_)
  rw [List.map_map, List.map_map]
  refine List.map_congr_left fun v hv => ?_
  have hunit : v.toNat ≤ 255 := by
    have := hvs v hv
    omega
  rw [Function.comp_apply, Function.comp_apply, Int.toNat_natCast, toNat_bitsOf_of_le (encryptBlock_le ..),
    decryptBlock_encryptBlock hc k1 k2 hunit]

/-- Settles O41: each of the two functions is the other's inverse. -/
theorem blockFunctionsAreBijections : Obligations.BlockFunctionsAreBijections := by
  intro c k1 k2 hc
  have hdecEnc := leftInverse_bitsOf (g := (decryptBlock c · k1 k2)) (encryptBlock_le c · k1 k2)
    fun _ => decryptBlock_encryptBlock hc k1 k2
  have hencDec := leftInverse_bitsOf (g := (encryptBlock c · k1 k2)) (decryptBlock_le c · k1 k2)
    fun _ => encryptBlock_decryptBlock hc k1 k2
  exact ⟨⟨hdecEnc.injective, hencDec.surjective⟩, ⟨hencDec.injective, hdecEnc.surjective⟩⟩

/-- Settles O42: the keys 0 and 1023 and the unit 0. -/
theorem encryptionDependsOnTheKey : Obligations.EncryptionDependsOnTheKey :=
  ⟨0, 1023, 0, by decide +kernel⟩

/-- Settles O43: each boundary value lies in its range or outside it, and the command ends accordingly. -/
theorem boundaryKeysAndUnits : Obligations.BoundaryKeysAndUnits := by
  refine ⟨fun s a ha => ?_, fun s a ha => ?_, fun s i a hi hkeyed ha => ?_, fun s i a hi hkeyed ha => ?_⟩
  · have hin : KeyInRange a := by omega
    exact ⟨_, exec_setkey_of_inRange hin s⟩
  · have hout : ¬ KeyInRange a := by omega
    exact exec_setkey_of_not_inRange hout s
  all_goals
    obtain ⟨f, hexec⟩ := exec_dataCommand hi
    obtain ⟨key, k1, k2, he⟩ := exists_eq_keyed_of_isKeyed hkeyed
  · have hin : ByteInRange a := by omega
    exact ⟨_, (hexec a s).trans (congrArg _ (deliver_dataOp_of_inRange f he hin))⟩
  · have hout : ¬ ByteInRange a := by omega
    rw [hexec, deliver_dataOp_of_not_inRange f he hout]

end Sys2Proof.Machine
end

section
/-!
PROOF. The obligations on errors (`60_exceptions.md` R122 to R128). An error is told by the status of the command's
response: each status has its condition (`setkeyOp_status_eq_invalidKey_iff`, `dataOp_status_eq_noKey_iff`,
`dataOp_status_eq_invalidByteValue_iff`), and with an error status the engine is as it was and the response has no data
(`engineStep_errorWritesNothing`).
-/

namespace Sys2Proof.Machine

/-! ### When each error is raised (R122 to R124) -/

theorem setkeyOp_status_eq_invalidKey_iff (c : Tables) (a : Int) (e : Engine) :
    (setkeyOp c a e).2.status = .invalidKey ↔ ¬ KeyInRange a := by
  by_cases h : KeyInRange a
  · simp [setkeyOp_of_inRange c h, h]
  · simp [setkeyOp_of_not_inRange c h, h]

section
variable (f : Nat → Block → Block → Nat) (a : Int) (e : Engine)

theorem dataOp_status_eq_noKey_iff : (dataOp f a e).2.status = .noKey ↔ e.isKeyed = false := by
  cases e with
  | unkeyed => simp [Engine.isKeyed]
  | keyed key k1 k2 =>
    by_cases h : ByteInRange a
    · simp [dataOp_keyed_of_inRange f h, Engine.isKeyed]
    · simp [dataOp_keyed_of_not_inRange f h, Engine.isKeyed]

theorem dataOp_status_eq_invalidByteValue_iff :
    (dataOp f a e).2.status = .invalidByteValue ↔ e.isKeyed = true ∧ ¬ ByteInRange a := by
  cases e with
  | unkeyed => simp [Engine.isKeyed]
  | keyed key k1 k2 =>
    by_cases h : ByteInRange a
    · simp [dataOp_keyed_of_inRange f h, h]
    · simp [dataOp_keyed_of_not_inRange f h, h, Engine.isKeyed]

end

theorem not_keyInRange_iff (a : Int) : ¬ KeyInRange a ↔ a < 0 ∨ a > 1023 := by omega

theorem not_byteInRange_iff (a : Int) : ¬ ByteInRange a ↔ a < 0 ∨ a > 255 := by omega

/-! ### What an error leaves unchanged (R128) -/

/-- The end `r` of a command on the engine `e`: if it is an error, the engine is `e` still and there is no data. -/
def ErrorWritesNothing (e : Engine) (r : Engine × Response) : Prop := r.2.status ≠ .ok → r.1 = e ∧ r.2.data = 0

theorem raise_errorWritesNothing (x : Status) (e : Engine) : ErrorWritesNothing e (raise x e) := fun _ => ⟨rfl, rfl⟩

/-- The one command that writes the engine, a `SETKEY` of a legal key, succeeds. -/
theorem engineStep_errorWritesNothing (c : Tables) (p : Op × Int) (e : Engine) :
    ErrorWritesNothing e (engineStep c p e) := by
  intro herror
  refine ⟨?_, engineStep_dataOnlyIfOk c p e herror⟩
  obtain hsame | ⟨a, ha, rfl, -⟩ := engineStep_engine_cases c p e
  · exact hsame
  · rw [engineStep_setkey, setkeyOp_of_inRange c ha] at herror
    exact absurd (respond_status _ _) herror

/-- A word, legal or not, and an abstract command each end with one response, and an error writes nothing. -/
theorem step_of_word_or_command {s : State} {m : HostMove} {rest : List HostMove} (hmoves : s.moves = m :: rest)
    (hm : (∃ w, m = .word w) ∨ ∃ p, m = .command (Instr.ofCommand p)) :
    ∃ r, step s = .next ((s.withMoves rest).deliver r) ∧ ErrorWritesNothing s.engine r := by
  obtain ⟨w, rfl⟩ | ⟨p, rfl⟩ := hm
  · obtain ⟨op, -, hd⟩ | ⟨-, hd⟩ := decode_cases w
    · exact ⟨_, step_of_command_word hmoves hd, engineStep_errorWritesNothing _ _ _⟩
    · exact ⟨_, step_of_illegal_word hmoves hd, raise_errorWritesNothing _ _⟩
  · refine ⟨_, ?_, engineStep_errorWritesNothing cfg p s.engine⟩
    rw [step_of_moves_cons hmoves, perform, exec_ofCommand, withMoves_engine]

/-! ### The obligations -/

/-- Settles O48: a response that is an error comes with the engine unchanged, so the move and the response are all that
the step wrote. -/
theorem errorsWriteNoState : Obligations.ErrorsWriteNoState := by
  intro s m rest hmoves hm
  obtain ⟨r, hstep, hr⟩ := step_of_word_or_command hmoves hm
  refine ⟨_, r.2, hstep, rfl, fun herror => ?_⟩
  obtain ⟨hengine, hdata⟩ := hr herror
  exact ⟨deliver_withMoves_eq_answered rest hengine, hdata⟩

/-- Settles O45: the condition of each status, the same for `ENC` as for `DEC`, and `engineStep_errorWritesNothing`. -/
theorem eachErrorExactlyWhenItsRuleSays : Obligations.EachErrorExactlyWhenItsRuleSays := by
  intro a e
  rw [← not_keyInRange_iff, ← not_byteInRange_iff]
  exact ⟨setkeyOp_status_eq_invalidKey_iff cfg a e, dataOp_status_eq_noKey_iff _ a e,
    dataOp_status_eq_noKey_iff _ a e, dataOp_status_eq_invalidByteValue_iff _ a e,
    dataOp_status_eq_invalidByteValue_iff _ a e, fun op => engineStep_errorWritesNothing cfg (op, a) e⟩

/-- Settles O46: the operation field is no operation's code, so the word does not decode. -/
theorem illegalWordIsReported : Obligations.IllegalWordIsReported := by
  intro s w rest hmoves hsetkey henc hdec
  rw [toNat_extractLsb'_eq_opcField] at hsetkey henc hdec
  have hopc : ∀ op, opcField w ≠ opcOf op := fun op => by
    cases op with
    | setkey => exact hsetkey
    | enc => exact henc
    | dec => exact hdec
  exact step_of_illegal_word hmoves (decode_of_opcField_ne hopc)

/-- Settles O47: a data command on an unkeyed engine ends with `NoKey` whatever its unit, and 1024 is no legal key. -/
theorem orderOfErrorChecks : Obligations.OrderOfErrorChecks := by
  refine ⟨fun s i a hi he _ => ?_, fun s _ => exec_setkey_of_not_inRange (by decide) s⟩
  obtain ⟨f, hexec⟩ := exec_dataCommand hi
  rw [hexec, deliver_dataOp_of_unkeyed f he]

end Sys2Proof.Machine
end

section
/-!
PROOF. The obligations on steps and runs (`70_reset_and_hazards.md` R136, R139, R146, R147). Before the first key they
rest on one fact: on an unkeyed engine a command that leaves it unkeyed is an error (`engineStep_unkeyed_error`). So
"unkeyed, no key to come, no success so far" is an invariant of the step (`step_keeps_awaitsKey`).
-/

namespace Sys2Proof.Machine

/-! ### On an unkeyed engine (R124, R139) -/

/-- `ENC` and `DEC` end with `NoKey`, and a `SETKEY` that does not key the engine with `InvalidKey`. -/
theorem engineStep_unkeyed_error {c : Tables} {p : Op × Int} (h : (engineStep c p .unkeyed).1 = .unkeyed) :
    (engineStep c p .unkeyed).2.status ≠ .ok := by
  obtain ⟨op, a⟩ := p
  cases op with
  | setkey =>
    rw [engineStep_setkey] at h ⊢
    by_cases ha : KeyInRange a
    · rw [setkeyOp_engine_of_inRange c ha, keyedWith] at h
      cases h
    · rw [setkeyOp_of_not_inRange c ha, raise_status]
      decide
  | enc =>
    rw [engineStep_enc, dataOp_unkeyed, raise_status]
    decide
  | dec =>
    rw [engineStep_dec, dataOp_unkeyed, raise_status]
    decide

/-- Whether the host stops at the first of them or not, commands none of which keys the engine all fail. -/
theorem runCommands_unkeyed_errors (c : Tables) (stop : Bool) {ps : List (Op × Int)}
    (h : ∀ p ∈ ps, (engineStep c p .unkeyed).1 = .unkeyed) :
    ∀ r ∈ (runCommands c stop ps .unkeyed).2, r.status ≠ .ok := by
  induction ps with
  | nil => exact fun r hr => absurd hr List.not_mem_nil
  | cons p ps ih =>
    obtain ⟨hp, hps⟩ := List.forall_mem_cons.mp h
    have herror : (engineStep c p .unkeyed).2.status ≠ .ok := engineStep_unkeyed_error hp
    cases stop with
    | true =>
      rw [runCommands_cons_stop c p ps _ herror]
      exact List.forall_mem_singleton.mpr herror
    | false =>
      rw [runCommands_cons_goOn, hp]
      exact List.forall_mem_cons.mpr ⟨herror, ih hps⟩

/-- No command has succeeded: every response so far is an error. -/
def State.NoneOk (s : State) : Prop := ∀ r ∈ s.responses, r.status ≠ .ok

theorem deliver_noneOk {s : State} {r : Engine × Response} (hs : s.NoneOk) (hr : r.2.status ≠ .ok) :
    (s.deliver r).NoneOk :=
  List.forall_mem_append.mpr ⟨hs, List.forall_mem_singleton.mpr hr⟩

theorem deliverSequence_noneOk {s : State} {q : Engine × List Response} (hs : s.NoneOk)
    (hq : ∀ r ∈ q.2, r.status ≠ .ok) : (s.deliverSequence q).NoneOk :=
  List.forall_mem_append.mpr ⟨hs, hq⟩

/-- An instruction that finds the engine unkeyed and leaves it so gives no success. -/
theorem exec_unkeyed_noneOk {i : Instr} {s t : State} (h : exec i s = .next t) (hs : s.engine = .unkeyed)
    (ht : t.engine = .unkeyed) (hnone : s.NoneOk) : t.NoneOk := by
  obtain ⟨p, -, rfl⟩ | ⟨vs, rfl, rfl⟩ | ⟨vs, rfl, rfl⟩ := exec_cases h
  · rw [deliver_engine, hs] at ht
    rw [hs]
    exact deliver_noneOk hnone (engineStep_unkeyed_error ht)
  · rw [hs]
    exact deliverSequence_noneOk hnone <|
      runCommands_unkeyed_errors _ _ <| List.forall_mem_map.mpr fun _ _ => dataOp_engine ..
  · rw [hs]
    exact deliverSequence_noneOk hnone <|
      runCommands_unkeyed_errors _ _ <| List.forall_mem_map.mpr fun _ _ => dataOp_engine ..

/-! ### What a step takes (R146) -/

/-- A step takes the host's next move, if there is one, and the host's choice of R108 stands (log entry 6). -/
theorem step_moves {s t : State} (h : step s = .next t) :
    t.moves = s.moves.tail ∧ t.stopsAtError = s.stopsAtError := by
  obtain ⟨hidle, rfl⟩ | ⟨i, rest, hmove, hexec⟩ | ⟨w, rest, hmove, -, rfl⟩ | ⟨rest, hmove, rfl⟩ := step_cases h
  · exact ⟨by rw [hidle, List.tail_nil], rfl⟩
  · obtain ⟨hrest, hstops, -⟩ := frameOfEveryInstruction i _ t hexec
    refine ⟨?_, hstops⟩
    obtain hmove | ⟨w, hmove, -⟩ := hmove
    · rw [hrest, hmove, withMoves_moves, List.tail_cons]
    · rw [hrest, hmove, withMoves_moves, List.tail_cons]
  · exact ⟨by rw [hmove, deliver_moves, withMoves_moves, List.tail_cons], rfl⟩
  · exact ⟨by rw [hmove, resetEngine_moves, withMoves_moves, List.tail_cons], rfl⟩

/-! ### Until the first key (R139) -/

/-- The engine is unkeyed, the host has no key to present, and no command has succeeded. -/
structure State.AwaitsKey (s : State) : Prop where
  unkeyed : s.engine = .unkeyed
  noKeyToCome : ∀ m ∈ s.moves, ¬ m.KeysEngine
  noneOk : s.NoneOk

/-- Only a keying move takes the engine out of its unkeyed state. -/
theorem step_unkeyed_engine {s t : State} (h : step s = .next t) (hs : s.engine = .unkeyed)
    (hmoves : ∀ m ∈ s.moves, ¬ m.KeysEngine) : t.engine = .unkeyed := by
  obtain hsame | ⟨-, -, hreset⟩ | ⟨m, rest, a, hmove, ha, hkey, -⟩ := step_engine_cases h
  · rw [hsame, hs]
  · exact hreset
  · have hm : m ∈ s.moves := hmove ▸ List.mem_cons_self
    exact absurd ((keysEngine_iff m).mpr ⟨a, ha, hkey⟩) (hmoves m hm)

/-- A step that finds the engine unkeyed and leaves it so gives no success. -/
theorem step_unkeyed_noneOk {s t : State} (h : step s = .next t) (hs : s.engine = .unkeyed)
    (ht : t.engine = .unkeyed) (hnone : s.NoneOk) : t.NoneOk := by
  obtain ⟨-, rfl⟩ | ⟨i, rest, -, hexec⟩ | ⟨w, rest, -, -, rfl⟩ | ⟨rest, -, rfl⟩ := step_cases h
  · exact hnone
  · exact exec_unkeyed_noneOk (s := s.withMoves rest) hexec hs ht hnone
  · exact deliver_noneOk (s := s.withMoves rest) hnone (by rw [illegalOp, raise_status]; decide)
  · exact hnone

theorem step_keeps_awaitsKey {s t : State} (hs : s.AwaitsKey) (h : step s = .next t) : t.AwaitsKey := by
  have hunkeyed : t.engine = .unkeyed := step_unkeyed_engine h hs.unkeyed hs.noKeyToCome
  have hmoves : t.moves = s.moves.tail := (step_moves h).1
  exact ⟨hunkeyed, fun m hm => hs.noKeyToCome m (List.mem_of_mem_tail (hmoves ▸ hm)),
    step_unkeyed_noneOk h hs.unkeyed hunkeyed hs.noneOk⟩

/-! ### The table word as the next word (log entry 7) -/

theorem decode_tableWord_of_some {nbits w : Nat} {i : Instr} (h : decodeTableWord nbits w = some i) :
    decode (tableWord nbits w) = .legal i := by
  rw [decodeTableWord] at h
  split at h
  next hd => cases h; exact hd
  next => cases h

/-! ### The obligations -/

/-- Settles O50: reset begins in a state that awaits its key, whatever moves without a key the host has placed, and
every step keeps it so. -/
theorem nothingSucceedsBeforeKeying : Obligations.NothingSucceedsBeforeKeying := by
  intro ms stops k t hms hrun
  have hreset : State.AwaitsKey { State.reset with moves := ms, stopsAtError := stops } :=
    ⟨rfl, hms, fun _ hr => absurd hr List.not_mem_nil⟩
  have ht : t.AwaitsKey := runSteps_keeps State.AwaitsKey (fun _ _ => step_keeps_awaitsKey) hreset hrun
  exact ⟨ht.unkeyed, ht.noneOk⟩

/-- Settles O51: a step always answers, and with the first of the moves gone. -/
theorem everyStepTakesOneMove : Obligations.EveryStepTakesOneMove := by
  intro s m rest hmoves
  obtain ⟨t, hstep⟩ := step_answers s
  obtain ⟨htail, hstops⟩ := step_moves hstep
  rw [hmoves, List.tail_cons] at htail
  exact ⟨t, hstep, htail, hstops⟩

/-- Settles O52: a table word is a word presented before the moves there were, so its step is that of a legal word. -/
theorem stepRunsTheDecodedInstruction : Obligations.StepRunsTheDecodedInstruction :=
  ⟨fun _ _ _ _ hmoves hd => step_of_legal_word hmoves hd, fun _ _ _ hmoves => step_of_moves_cons hmoves,
    fun _ _ _ _ hd => step_of_legal_word rfl (decode_tableWord_of_some hd)⟩

/-- Settles O53: with no moves left there is none to perform. -/
theorem idleStepKeepsTheState : Obligations.IdleStepKeepsTheState := fun _ hmoves => step_of_moves_nil hmoves

end Sys2Proof.Machine
end

section
/-!
PROOF. The obligation on which keys the default tables do not tell apart (`46_contract_properties.md` R119 (c), (d); log
entry 1). Each bit of a subkey is one bit of the key (`getMsbD_subkey`), at a place that the tables decide. Bit 8, of
weight 256, is at no such place. The bits that K1 and K2 hold at equal indices join the key's other bits into two
groups, of weights 232 and 535 in all, so a key with equal subkeys is a choice of these three weights
(`eq_keyOfGroups`).
-/

namespace Sys2Proof.Machine

/-- The place in the key, 0 the least significant, of the bit that a subkey holds at index `i`, where `r` is the number
of rotations before it: 1 for K1, 2 for K2 (R79). -/
def subkeySource (c : Tables) (r : Nat) (i : Fin 8) : Nat :=
  9 - (c.p10.toList.getD (rotatedIndex r (c.p8[i] - 1)) 0 - 1)

theorem getMsbD_subkey {c : Tables} (hc : c.WF) (r a : Nat) (i : Fin 8) :
    (perm c.p8 (rotateHalves r (keyAfterP10 c a))).getMsbD i = a.testBit (subkeySource c r i) := by
  rw [getMsbD_perm_p8_rotateHalves hc, subkeySource, Nat.testBit_eq_decide_div_mod_eq]

theorem subkey_eq_iff {c : Tables} (hc : c.WF) (r r' a b : Nat) :
    perm c.p8 (rotateHalves r (keyAfterP10 c a)) = perm c.p8 (rotateHalves r' (keyAfterP10 c b)) ↔
      ∀ i, a.testBit (subkeySource c r i) = b.testBit (subkeySource c r' i) := by
  simp only [← getMsbD_subkey hc]
  exact ⟨fun h i => by rw [h], fun h => BitVec.eq_of_getMsbD_eq fun i hi => h ⟨i, hi⟩⟩

/-! ### The default tables (log entry 1) -/

theorem subkeySource_cfg_one : subkeySource cfg 1 = ![9, 3, 1, 6, 2, 7, 0, 4] := by decide

theorem subkeySource_cfg_two : subkeySource cfg 2 = ![1, 6, 2, 7, 4, 5, 9, 0] := by decide

theorem testBit_xor_256 {j : Nat} (h : j ≠ 8) (k : Nat) : (k ^^^ 256).testBit j = k.testBit j := by
  have hbit : Nat.testBit (2 ^ 8) j = false := Nat.testBit_two_pow_of_ne h.symm
  rw [Nat.testBit_xor, show 256 = 2 ^ 8 from rfl, hbit, Bool.xor_false]

/-- A subkey that reads bit 8 nowhere is the same when that bit is flipped. -/
theorem subkey_xor_256 {r : Nat} (h : ∀ i, subkeySource cfg r i ≠ 8) (k : Nat) :
    perm cfg.p8 (rotateHalves r (keyAfterP10 cfg k)) = perm cfg.p8 (rotateHalves r (keyAfterP10 cfg (k ^^^ 256))) :=
  (subkey_eq_iff defaultTablesAreWellFormed r r _ _).mpr fun i => (testBit_xor_256 (h i) k).symm

theorem keySchedule_xor_256 (k : Nat) : keySchedule cfg k = keySchedule cfg (k ^^^ 256) := by
  have hone : ∀ i, subkeySource cfg 1 i ≠ 8 := by rw [subkeySource_cfg_one]; decide
  have htwo : ∀ i, subkeySource cfg 2 i ≠ 8 := by rw [subkeySource_cfg_two]; decide
  exact Prod.ext (subkey_xor_256 hone k) (subkey_xor_256 htwo k)

/-- The bits of the key that K1 and K2 hold at the same index are equal. -/
def SourcesAgree (k : Nat) : Prop := ∀ i, k.testBit (subkeySource cfg 1 i) = k.testBit (subkeySource cfg 2 i)

theorem keySchedule_fst_eq_snd_iff (k : Nat) : (keySchedule cfg k).1 = (keySchedule cfg k).2 ↔ SourcesAgree k := by
  rw [keySchedule_fst, keySchedule_snd]
  exact subkey_eq_iff defaultTablesAreWellFormed 1 2 k k

/-- Five of the eight equations go round the bits 9, 1, 2, 4 and 0, and three along the bits 3, 6, 7 and 5. -/
theorem sourcesAgree_iff (k : Nat) : SourcesAgree k ↔
    (∀ j ∈ [5, 6, 7], k.testBit j = k.testBit 3) ∧ ∀ j ∈ [1, 2, 4, 9], k.testBit j = k.testBit 0 := by
  simp only [SourcesAgree, subkeySource_cfg_one, subkeySource_cfg_two, Fin.forall_fin_succ, Matrix.cons_val_zero,
    Matrix.cons_val_succ, List.forall_mem_cons]
  grind

/-- The key whose bits 3, 5, 6 and 7 are `x`, whose bit 8 is `y`, and whose bits 0, 1, 2, 4 and 9 are `z`. -/
def keyOfGroups (x y z : Bool) : Nat := 232 * x.toNat + 256 * y.toNat + 535 * z.toNat

/-- Bit 3 decides its group, bit 0 the other. -/
theorem eq_keyOfGroups {k : Nat} (hk : k ≤ 1023) (h : SourcesAgree k) :
    k = keyOfGroups (k.testBit 3) (k.testBit 8) (k.testBit 0) := by
  obtain ⟨hthree, hzero⟩ := (sourcesAgree_iff k).mp h
  have hbits : k = Nat.ofBits fun j : Fin 10 => k.testBit j := by
    rw [Nat.ofBits_testBit, Nat.mod_eq_of_lt (Nat.lt_succ_of_le hk)]
  simp only [List.forall_mem_cons] at hthree hzero
  simp only [Nat.ofBits, Fin.foldr_succ, Fin.foldr_zero, Fin.val_succ, Fin.val_eq_zero, zero_add, Nat.reduceAdd,
    Fin.coe_ofNat_eq_mod, Nat.zero_mod, hthree, hzero] at hbits
  rw [keyOfGroups]
  omega

theorem keyOfGroups_mem (x y z : Bool) : keyOfGroups x y z ∈ [0, 232, 256, 488, 535, 767, 791, 1023] := by
  decide +revert

theorem sourcesAgree_of_mem : ∀ k ∈ [0, 232, 256, 488, 535, 767, 791, 1023], SourcesAgree k := by
  simp only [sourcesAgree_iff]
  decide

/-! ### The obligation -/

/-- Settles O28: neither subkey reads bit 8; and equal subkeys make the key one of eight choices, each of which gives
equal subkeys. -/
theorem keyBitOfWeight256ReachesNoSubkey : Obligations.KeyBitOfWeight256ReachesNoSubkey := by
  refine ⟨fun k _ => keySchedule_xor_256 k, fun k hk => ?_⟩
  rw [keySchedule_fst_eq_snd_iff]
  refine ⟨fun h => ?_, sourcesAgree_of_mem k⟩
  rw [eq_keyOfGroups hk h]
  exact keyOfGroups_mem _ _ _

end Sys2Proof.Machine
end
